-- ==== Sys2Proof/Word.lean ====
section
/-! DEFINITION. The word types of CFE and nothing else: every value is unsigned (spec/00_scope.md R11). -/

namespace Sys2Proof

/-- A byte: an unsigned 8-bit value (R11). -/
abbrev Byte := BitVec 8

/-- A frame length, payload index or `tx_remaining`: 16 bits (R9, R25). -/
abbrev Len := BitVec 16

/-- The width of `rx_count` (R30). -/
abbrev Count := BitVec 17

/-- A CRC value, an operand or the `data` of a result: 32 bits (R9, R14, R80). -/
abbrev Word := BitVec 32

/-- An operation word: exactly 40 bits, `op` in 39:32 and `operand` in 31:0 (R80). -/
abbrev OpWord := BitVec 40

end Sys2Proof
end

