-- ==== Sys2Proof/Syntax.lean ====
section
/-! DEFINITION. The operations of CFE as syntax: one constructor per row of spec/opcode_table.json
(spec/30_encoding.md R82), the operand formats (R81), and the source lines of the assembler (R86, R87). -/

namespace Sys2Proof

/-- One constructor per operation (R82). The operand types have exactly the widths of the fields of R81, so every
term is an operation that has a word. -/
inductive Instr where
  | nop
  | crcInit
  | crcByte (d : Byte)
  | crcRead
  | rxReset
  | rxByte (d : Byte)
  | rxRelease
  | rxReadhdr
  | rxPeek (idx : Len)
  | rxStatus
  | txStart (cmd seq : Byte) (len : Len)
  | txByte (d : Byte)
  | txAbort
  | txStatus
  deriving DecidableEq, Repr

/-- The four operand formats (R81). -/
inductive Format where
  | n
  | b
  | i
  | h
  deriving DecidableEq, Repr

/-- The column "unit" of R82. -/
inductive CfeUnit where
  | none
  | crc
  | tx
  | rx
  deriving DecidableEq, Repr

/-- The mnemonic of R82. -/
def Instr.mnemonic : Instr → String
  | .nop => "NOP"
  | .crcInit => "CRC.INIT"
  | .crcByte _ => "CRC.BYTE"
  | .crcRead => "CRC.READ"
  | .rxReset => "RX.RESET"
  | .rxByte _ => "RX.BYTE"
  | .rxRelease => "RX.RELEASE"
  | .rxReadhdr => "RX.READHDR"
  | .rxPeek _ => "RX.PEEK"
  | .rxStatus => "RX.STATUS"
  | .txStart _ _ _ => "TX.START"
  | .txByte _ => "TX.BYTE"
  | .txAbort => "TX.ABORT"
  | .txStatus => "TX.STATUS"

/-- The format of R82. -/
def Instr.format : Instr → Format
  | .nop => .n
  | .crcInit => .n
  | .crcByte _ => .b
  | .crcRead => .n
  | .rxReset => .n
  | .rxByte _ => .b
  | .rxRelease => .n
  | .rxReadhdr => .n
  | .rxPeek _ => .i
  | .rxStatus => .n
  | .txStart _ _ _ => .h
  | .txByte _ => .b
  | .txAbort => .n
  | .txStatus => .n

/-- The unit whose state the operation may touch (R82, spec/20_memory.md R61). -/
def Instr.cfeUnit : Instr → CfeUnit
  | .nop => .none
  | .crcInit => .crc
  | .crcByte _ => .crc
  | .crcRead => .crc
  | .rxReset => .rx
  | .rxByte _ => .rx
  | .rxRelease => .rx
  | .rxReadhdr => .rx
  | .rxPeek _ => .rx
  | .rxStatus => .rx
  | .txStart _ _ _ => .tx
  | .txByte _ => .tx
  | .txAbort => .tx
  | .txStatus => .tx

/-- A source line of the assembler (R86), its operands as numbers, and the pseudo-operations (R87). -/
inductive AsmLine where
  | nop
  | crcInit
  | crcByte (d : Nat)
  | crcRead
  | rxReset
  | rxByte (d : Nat)
  | rxRelease
  | rxReadhdr
  | rxPeek (idx : Nat)
  | rxStatus
  | txStart (cmd seq len : Nat)
  | txByte (d : Nat)
  | txAbort
  | txStatus
  /-- `.word w`: the 40-bit word unchanged, with no check (R86). -/
  | word (w : OpWord)
  /-- `CRC.BLOCK b0, …` (R87). -/
  | crcBlock (bytes : List Nat)
  /-- `TX.FRAME cmd, seq, [p0, …]` (R87). -/
  | txFrame (cmd seq : Nat) (payload : List Nat)
  /-- `RX.FEED b0, …` (R87). -/
  | rxFeed (bytes : List Nat)
  /-- A transport poll that returned no byte (R87). -/
  | emptyPoll
  deriving DecidableEq, Repr

end Sys2Proof
end

