-- ==== Sys2Proof/WellFormed.lean ====
section
/-! DEFINITION. Well-formedness. An `Instr` is well-formed by its type (each operand has its field's width, R81), so
the checks stand where spec/30_encoding.md puts them: on the source lines of the assembler. "An operand outside its
field's range (byte > 255, index or length > 65535) is an assembly error, not a truncation" (R86). -/

namespace Sys2Proof

/-- A byte operand is in range (R86). -/
def byteInRange (d : Nat) : Bool := decide (d ≤ 255)

/-- An index or a length operand is in range (R86). -/
def lenInRange (n : Nat) : Bool := decide (n ≤ 65535)

/-- The checks of the assembler (R86, R87). -/
def AsmLine.wellFormed : AsmLine → Bool
  | .nop => true
  | .crcInit => true
  | .crcByte d => byteInRange d
  | .crcRead => true
  | .rxReset => true
  | .rxByte d => byteInRange d
  | .rxRelease => true
  | .rxReadhdr => true
  | .rxPeek idx => lenInRange idx
  | .rxStatus => true
  | .txStart cmd seq len => byteInRange cmd && byteInRange seq && lenInRange len
  | .txByte d => byteInRange d
  | .txAbort => true
  | .txStatus => true
  | .word _ => true
  | .crcBlock bytes => bytes.all byteInRange
  | .txFrame cmd seq payload =>
      byteInRange cmd && byteInRange seq && payload.all byteInRange && lenInRange payload.length
  | .rxFeed bytes => bytes.all byteInRange
  | .emptyPoll => true

end Sys2Proof
end

