-- ==== Sys2Proof/Decode.lean ====
section
/-! DEFINITION. Decoding of the 40-bit operation word (spec/30_encoding.md R80 to R84), then the table of R88, the
encoder, and the assembler over it (R86, R87). -/

namespace Sys2Proof

/-- The two causes of ILLEGAL (spec/60_exceptions.md R211). CFE reports neither to the host. -/
inductive IllegalCause where
  /-- `op` is not in the map of R82 (R84). -/
  | unassignedOp
  /-- A 1 in an operand bit that the format marks 0 (R83). -/
  | reservedOperandBit
  deriving DecidableEq, Repr

/-- Field `op` (R80). -/
def opField (w : OpWord) : Byte := w.extractLsb' 32 8

/-- Field `operand` (R80). -/
def operandField (w : OpWord) : Word := w.extractLsb' 0 32

/-- Format N: bits 31:0 must be zero (R81, R83). -/
def decodeN (operand : Word) (i : Instr) : Except IllegalCause Instr :=
  if operand = 0#32 then .ok i else .error .reservedOperandBit

/-- Format B: the byte in 7:0, bits 31:8 must be zero (R81, R83). -/
def decodeB (operand : Word) (mk : Byte → Instr) : Except IllegalCause Instr :=
  if operand.extractLsb' 8 24 = 0#24 then .ok (mk (operand.extractLsb' 0 8)) else .error .reservedOperandBit

/-- Format I: the index in 15:0, bits 31:16 must be zero (R81, R83). -/
def decodeI (operand : Word) (mk : Len → Instr) : Except IllegalCause Instr :=
  if operand.extractLsb' 16 16 = 0#16 then .ok (mk (operand.extractLsb' 0 16)) else .error .reservedOperandBit

/-- Format H: cmd in 7:0, seq in 15:8, len in 31:16; no reserved bit (R81, R83). -/
def decodeH (operand : Word) (mk : Byte → Byte → Len → Instr) : Except IllegalCause Instr :=
  .ok (mk (operand.extractLsb' 0 8) (operand.extractLsb' 8 8) (operand.extractLsb' 16 16))

/-- The decoder: the operation is selected "by `op` alone, which is a full 8-bit match", then the format's zero bits
are checked (R82). -/
def decode (w : OpWord) : Except IllegalCause Instr :=
  match (opField w).toNat with
  | 0x00 => decodeN (operandField w) .nop
  | 0x10 => decodeN (operandField w) .crcInit
  | 0x11 => decodeB (operandField w) .crcByte
  | 0x12 => decodeN (operandField w) .crcRead
  | 0x20 => decodeN (operandField w) .rxReset
  | 0x21 => decodeB (operandField w) .rxByte
  | 0x22 => decodeN (operandField w) .rxRelease
  | 0x23 => decodeN (operandField w) .rxReadhdr
  | 0x24 => decodeI (operandField w) .rxPeek
  | 0x25 => decodeN (operandField w) .rxStatus
  | 0x30 => decodeH (operandField w) .txStart
  | 0x31 => decodeB (operandField w) .txByte
  | 0x32 => decodeN (operandField w) .txAbort
  | 0x33 => decodeN (operandField w) .txStatus
  | _ => .error .unassignedOp

/-- The word a table row of `nbits` bits stands for: bit 0 of `w` is bit 0 of the operation word (one word of 40 bits,
R80), and every bit above `nbits` is 0. A number of more than 40 bits is no operation word: its bits above 39 are not
looked at (log 12). -/
def tableWord (nbits w : Nat) : OpWord := BitVec.ofNat 40 (w % 2 ^ nbits)

/-- What the decoder reads from an opcode-table word. -/
def decodeTableWord (nbits w : Nat) : Option Instr :=
  match decode (tableWord nbits w) with
  | .ok i => some i
  | .error _ => none

/-- One row of the pattern table (R88). -/
structure OpRow where
  mnemonic : String
  matchBits : OpWord
  mask : OpWord
  deriving DecidableEq, Repr

/-- The pattern table, as R88 prints it. -/
def opRows : List OpRow :=
  [⟨"NOP", 0x0000000000#40, 0xFFFFFFFFFF#40⟩,
   ⟨"CRC.INIT", 0x1000000000#40, 0xFFFFFFFFFF#40⟩,
   ⟨"CRC.BYTE", 0x1100000000#40, 0xFFFFFFFF00#40⟩,
   ⟨"CRC.READ", 0x1200000000#40, 0xFFFFFFFFFF#40⟩,
   ⟨"RX.RESET", 0x2000000000#40, 0xFFFFFFFFFF#40⟩,
   ⟨"RX.BYTE", 0x2100000000#40, 0xFFFFFFFF00#40⟩,
   ⟨"RX.RELEASE", 0x2200000000#40, 0xFFFFFFFFFF#40⟩,
   ⟨"RX.READHDR", 0x2300000000#40, 0xFFFFFFFFFF#40⟩,
   ⟨"RX.PEEK", 0x2400000000#40, 0xFFFFFF0000#40⟩,
   ⟨"RX.STATUS", 0x2500000000#40, 0xFFFFFFFFFF#40⟩,
   ⟨"TX.START", 0x3000000000#40, 0xFF00000000#40⟩,
   ⟨"TX.BYTE", 0x3100000000#40, 0xFFFFFFFF00#40⟩,
   ⟨"TX.ABORT", 0x3200000000#40, 0xFFFFFFFFFF#40⟩,
   ⟨"TX.STATUS", 0x3300000000#40, 0xFFFFFFFFFF#40⟩]

/-- "A word w selects a row iff `w & mask = match`" (R88). -/
def OpRow.selects (r : OpRow) (w : OpWord) : Bool := decide (w &&& r.mask = r.matchBits)

/-- An operation word from its two fields (R80). -/
def opWord (op : Byte) (operand : Word) : OpWord := op ++ operand

/-- The operation code (R82). -/
def Instr.opcode : Instr → Byte
  | .nop => 0x00#8
  | .crcInit => 0x10#8
  | .crcByte _ => 0x11#8
  | .crcRead => 0x12#8
  | .rxReset => 0x20#8
  | .rxByte _ => 0x21#8
  | .rxRelease => 0x22#8
  | .rxReadhdr => 0x23#8
  | .rxPeek _ => 0x24#8
  | .rxStatus => 0x25#8
  | .txStart _ _ _ => 0x30#8
  | .txByte _ => 0x31#8
  | .txAbort => 0x32#8
  | .txStatus => 0x33#8

/-- Operand of format B: the byte, zero-extended (R81). -/
def operandB (d : Byte) : Word := d.setWidth 32

/-- Operand of format I: the index, zero-extended (R81). -/
def operandI (idx : Len) : Word := idx.setWidth 32

/-- Operand of format H: `len` in 31:16, `seq` in 15:8, `cmd` in 7:0 (R81). -/
def operandH (cmd seq : Byte) (len : Len) : Word := (len ++ seq : BitVec 24) ++ cmd

/-- The operand (R81). -/
def Instr.operand : Instr → Word
  | .nop => 0#32
  | .crcInit => 0#32
  | .crcByte d => operandB d
  | .crcRead => 0#32
  | .rxReset => 0#32
  | .rxByte d => operandB d
  | .rxRelease => 0#32
  | .rxReadhdr => 0#32
  | .rxPeek idx => operandI idx
  | .rxStatus => 0#32
  | .txStart cmd seq len => operandH cmd seq len
  | .txByte d => operandB d
  | .txAbort => 0#32
  | .txStatus => 0#32

/-- The encoder (R80, R81, R82). -/
def encode (i : Instr) : OpWord := opWord i.opcode i.operand

/-- The operand bits a format marks 0 (R83). -/
def Format.reservedMask : Format → Word
  | .n => 0xFFFFFFFF#32
  | .b => 0xFFFFFF00#32
  | .i => 0xFFFF0000#32
  | .h => 0x00000000#32

/-- The operations a well-formed source line stands for, pseudo-operations expanded (R86, R87); `.word` stands for a
word and not for an operation. -/
def AsmLine.expand : AsmLine → List Instr
  | .nop => [.nop]
  | .crcInit => [.crcInit]
  | .crcByte d => [.crcByte (BitVec.ofNat 8 d)]
  | .crcRead => [.crcRead]
  | .rxReset => [.rxReset]
  | .rxByte d => [.rxByte (BitVec.ofNat 8 d)]
  | .rxRelease => [.rxRelease]
  | .rxReadhdr => [.rxReadhdr]
  | .rxPeek idx => [.rxPeek (BitVec.ofNat 16 idx)]
  | .rxStatus => [.rxStatus]
  | .txStart cmd seq len => [.txStart (BitVec.ofNat 8 cmd) (BitVec.ofNat 8 seq) (BitVec.ofNat 16 len)]
  | .txByte d => [.txByte (BitVec.ofNat 8 d)]
  | .txAbort => [.txAbort]
  | .txStatus => [.txStatus]
  | .word _ => []
  | .crcBlock bytes => .crcInit :: bytes.map (fun d => .crcByte (BitVec.ofNat 8 d)) ++ [.crcRead]
  | .txFrame cmd seq payload =>
      .txStart (BitVec.ofNat 8 cmd) (BitVec.ofNat 8 seq) (BitVec.ofNat 16 payload.length)
        :: payload.map (fun d => .txByte (BitVec.ofNat 8 d))
  | .rxFeed bytes => bytes.map (fun d => .rxByte (BitVec.ofNat 8 d))
  | .emptyPoll => []

/-- The words of a source line; `none` is an assembly error (R86, R87). -/
def AsmLine.assemble (l : AsmLine) : Option (List OpWord) :=
  if l.wellFormed then
    match l with
    | .word w => some [w]
    | l => some (l.expand.map encode)
  else none

/-- One hexadecimal digit. -/
def hexDigit (n : Nat) : Char :=
  if n < 10 then Char.ofNat (48 + n) else Char.ofNat (55 + n)

/-- The hex word form: `0x` and ten hex digits (R86). -/
def hexWordForm (w : OpWord) : String :=
  String.ofList ('0' :: 'x' :: (List.range 10).map (fun k => hexDigit ((w.toNat / 16 ^ (9 - k)) % 16)))

/-- The operands of an operation in source order (R86: format H is written `cmd, seq, len`). -/
def Instr.sourceOperands : Instr → List Nat
  | .nop => []
  | .crcInit => []
  | .crcByte d => [d.toNat]
  | .crcRead => []
  | .rxReset => []
  | .rxByte d => [d.toNat]
  | .rxRelease => []
  | .rxReadhdr => []
  | .rxPeek idx => [idx.toNat]
  | .rxStatus => []
  | .txStart cmd seq len => [cmd.toNat, seq.toNat, len.toNat]
  | .txByte d => [d.toNat]
  | .txAbort => []
  | .txStatus => []

/-- The written form of an operation: "its mnemonic, a space, then its operands separated by commas", in decimal (R86). -/
def Instr.render (i : Instr) : String :=
  match i.sourceOperands with
  | [] => i.mnemonic
  | operands => i.mnemonic ++ " " ++ String.intercalate ", " (operands.map toString)

end Sys2Proof
end

