-- ==== Sys2Proof/Config.lean ====
section
/-! DEFINITION. The fixed parameters of CFE (spec/00_scope.md R9) and the one free value of the model. -/

namespace Sys2Proof.Config

/-- CRC polynomial, reflected form (R9, R110). -/
def crcPoly : Word := 0xEDB88320#32

/-- CRC initial value (R9, R111). -/
def crcInit : Word := 0xFFFFFFFF#32

/-- CRC final XOR (R9, R111). -/
def crcFinalXor : Word := 0xFFFFFFFF#32

/-- First marker byte (R9, R70). -/
def marker1 : Byte := 0x55#8

/-- Second marker byte (R9, R70). -/
def marker2 : Byte := 0xAA#8

/-- The longest payload, 65535 bytes (R9, R71). -/
def maxPayload : Nat := 65535

/-- `RXCAP`: the number of cells of the RX buffer (R9, R29). -/
def rxCap : Nat := 65543

/-- FREE VALUE (log 1). What cell `i` of `rx_buf` holds after a reset and before its first write is
unspecified, "any byte in each cell" (R29), an unconstrained draw (R37, R240). The first argument says which
reset the draw belongs to. There is no body: nothing can evaluate it or prove a value of it. -/
opaque rxBufDraw : Nat → Nat → Byte

end Sys2Proof.Config
end

