-- ==== Sys2Proof/Machine/State.lean ====
section
/-! DEFINITION. The state of CFE (spec/10_state.md R36: the complete list), the host side of its port, the reasons a
step can stop, and the state after reset. Plain data: no field is a function. -/

namespace Sys2Proof.Machine

/-- The synchronizer's states (R28). Value 3 of the 2-bit register is "never reached", so there are three
constructors, as R28 allows (log 9). The codes are in Machine/Flags.lean. -/
inductive RxState where
  | seek1
  | seek2
  | collect
  deriving DecidableEq, Repr

/-- The four statuses of an operation (spec/60_exceptions.md R210). -/
inductive Status where
  | ok
  | busy
  | paramError
  | illegal
  deriving DecidableEq, Repr

/-- The diagnostic events `RX.BYTE` returns (spec/42_synchronizer.md R176). -/
inductive RxEvent where
  | noise
  | mark1
  | mark2
  | drop2
  | collect
  | frameOk
  | frameBad
  deriving DecidableEq, Repr

/-- What an operation returns: `(status, data, out)` (spec/00_scope.md R14). -/
structure OpResult where
  status : Status
  data : Word
  out : List Byte
  deriving DecidableEq, Repr

/-- One input of a step: an operation word or the reset input (spec/43_block.md R202). -/
inductive HostInput where
  | word (w : OpWord)
  | reset
  deriving DecidableEq, Repr

/-- The written cells of a byte memory: (address, byte) pairs, addresses strictly rising. -/
abbrev Memory := List Host.Cell

/-- The state. The first eight fields are the architectural state of R36; the last four are the model's own. -/
structure State where
  /-- `crc_acc` (R23). -/
  crcAcc : Word
  /-- `tx_busy` (R24). -/
  txBusy : Bool
  /-- `tx_remaining` (R25). -/
  txRemaining : Len
  /-- `tx_crc` (R26). -/
  txCrc : Word
  /-- `rx_state` (R28). -/
  rxState : RxState
  /-- `rx_count` (R30). -/
  rxCount : Count
  /-- `rx_frame_valid` (R31). -/
  rxFrameValid : Bool
  /-- `rx_buf` (R29): the cells written since the last reset input. Another cell holds the free value of log 1. -/
  rxBuf : Memory
  /-- The model's own (log 1): which draw of the unspecified cells is the current one. -/
  rxBufEpoch : Nat
  /-- The model's own (log 2): what the host presents, the next input first. -/
  input : List HostInput
  /-- The model's own (log 4): what the last step returned, if it returned a result. -/
  result : Option OpResult
  /-- The model's own (log 5): the host-side queue of `out` bytes, oldest first (spec/20_memory.md R62). -/
  txOut : List Byte
  deriving DecidableEq, Repr

/-- Why the machine stops. -/
inductive Fault where
  /-- Raised by `RX.BYTE` in COLLECT when `rx_count` is 65543 or more, so that the cell it would write,
  `rx_buf[rx_count]`, does not exist (R29). Safe: no state that satisfies the RX invariant of R33 raises it (log 6). -/
  | rxBufIndex
  deriving DecidableEq, Repr

/-- Why an operation has no meaning here. -/
inductive Refusal where
  /-- Raised by no arm: every operation has its meaning. Safe. -/
  | notModelled (mnemonic : String)
  deriving DecidableEq, Repr

/-- The state after reset (R36, spec/70_reset_and_hazards.md R240), with nothing presented by the host, nothing
returned and nothing sent (logs 1, 2, 4, 5). -/
def State.reset : State where
  crcAcc := 0xFFFFFFFF#32
  txBusy := false
  txRemaining := 0#16
  txCrc := 0xFFFFFFFF#32
  rxState := .seek1
  rxCount := 0#17
  rxFrameValid := false
  rxBuf := []
  rxBufEpoch := 0
  input := []
  result := none
  txOut := []

end Sys2Proof.Machine
end

