-- ==== Sys2Proof/Machine/Operands.lean ====
section
/-! DEFINITION. How bytes, halfwords and words are taken apart and put together (spec/00_scope.md R12,
spec/20_memory.md R50, R52, R53, spec/30_encoding.md R85). Little-endian throughout. -/

namespace Sys2Proof.Machine

/-- `LE16(b0, b1)` (R12). -/
def le16 (b0 b1 : Byte) : Len := b0.setWidth 16 ||| (b1.setWidth 16 <<< 8)

/-- `LE32(b0, b1, b2, b3)` (R12). -/
def le32 (b0 b1 b2 b3 : Byte) : Word :=
  b0.setWidth 32 ||| (b1.setWidth 32 <<< 8) ||| (b2.setWidth 32 <<< 16) ||| (b3.setWidth 32 <<< 24)

/-- `bytesLE32(w)` (R12, R53). -/
def bytesLE32 (w : Word) : List Byte :=
  [w.extractLsb' 0 8, w.extractLsb' 8 8, w.extractLsb' 16 8, w.extractLsb' 24 8]

/-- The low byte of a length, `len[7:0]` (R71). -/
def lenLow (len : Len) : Byte := len.extractLsb' 0 8

/-- The high byte of a length, `len[15:8]` (R71). -/
def lenHigh (len : Len) : Byte := len.extractLsb' 8 8

/-- The header bytes `[cmd, seq, length_low, length_high]` (R70, R140). -/
def headerBytes (cmd seq : Byte) (len : Len) : List Byte := [cmd, seq, lenLow len, lenHigh len]

/-- The marker `[0x55, 0xAA]` (R70). -/
def markerBytes : List Byte := [Config.marker1, Config.marker2]

/-- `zext_32` of a byte (R12). -/
def zext32 (b : Byte) : Word := b.setWidth 32

end Sys2Proof.Machine
end

