-- ==== Sys2Proof/Machine/Flags.lean ====
section
/-! DEFINITION. The two flags of CFE (spec/10_state.md R24, R31, R38), and every code and status word that shows
state to the host: statuses (spec/30_encoding.md R89), synchronizer states (R28), events (spec/42_synchronizer.md
R176), `TX.STATUS` (spec/41_frame_codec.md R143), `RX.STATUS` (R175), the level output `rx_frame_ready` (R35). -/

namespace Sys2Proof.Machine

/-- The 2-bit code of a status (R89). -/
def statusCode : Status → BitVec 2
  | .ok => 0#2
  | .busy => 1#2
  | .paramError => 2#2
  | .illegal => 3#2

/-- The 2-bit encoding of `rx_state` (R28). -/
def rxStateCode : RxState → BitVec 2
  | .seek1 => 0#2
  | .seek2 => 1#2
  | .collect => 2#2

/-- The event code in `data[2:0]`; every other bit of `data` is 0 (R176). -/
def eventData : RxEvent → Word
  | .noise => 0#32
  | .mark1 => 1#32
  | .mark2 => 2#32
  | .drop2 => 3#32
  | .collect => 4#32
  | .frameOk => 5#32
  | .frameBad => 6#32

/-- A flag as a bit, zero-extended to 32 bits. -/
def flagWord (b : Bool) : Word := (BitVec.ofBool b).setWidth 32

/-- The `data` of `TX.STATUS`: bit 0 `tx_busy`, bits 31:16 `tx_remaining` (R143). -/
def txStatusWord (s : State) : Word := flagWord s.txBusy ||| (s.txRemaining.setWidth 32 <<< 16)

/-- The `data` of `RX.STATUS`: bits 1:0 `rx_state`, bit 2 `rx_frame_valid`, bits 31:15 `rx_count` (R175). -/
def rxStatusWord (s : State) : Word :=
  (rxStateCode s.rxState).setWidth 32 ||| (flagWord s.rxFrameValid <<< 2) ||| (s.rxCount.setWidth 32 <<< 15)

/-- The level output `rx_frame_ready`, equal to `rx_frame_valid` at all times (R35, spec/60_exceptions.md R216). -/
def rxFrameReady (s : State) : Bool := s.rxFrameValid

end Sys2Proof.Machine
end

