-- ==== Sys2Proof/Machine/Ops.lean ====
section
/-! DEFINITION. The named operations that the meanings share: the RX buffer's memory, the ways an operation ends, and
the port on which the host presents its inputs. -/

namespace Sys2Proof.Machine

/-- What was last written at an address, or `none` if nothing was. -/
def Memory.read : Memory → Nat → Option Byte
  | [], _ => none
  | (b, v) :: rest, a => if a = b then some v else Memory.read rest a

/-- Writes one byte and keeps the addresses strictly rising. -/
def Memory.write : Memory → Nat → Byte → Memory
  | [], a, v => [(a, v)]
  | (b, u) :: rest, a, v =>
    if a < b then (a, v) :: (b, u) :: rest
    else if a = b then (a, v) :: rest
    else (b, u) :: Memory.write rest a v

/-- Every address of the list is above `lo`, and they rise strictly. -/
def Memory.risingFrom : Nat → Memory → Bool
  | _, [] => true
  | lo, (b, _) :: rest => decide (lo ≤ b) && Memory.risingFrom (b + 1) rest

/-- The canonical form: strictly rising addresses, all of them cells of the RX buffer (R29). An address that is not
listed reads as "nothing written" (`Memory.read` answers `none`), which no entry equals. -/
def Memory.wf (m : Memory) : Bool :=
  Memory.risingFrom 0 m && m.all (fun c => decide (c.1 < Config.rxCap))

/-- `rx_buf[i]` (spec/10_state.md R29): the byte last written there since the last reset input, else the free value of
this reset (R37, spec/70_reset_and_hazards.md R240; log 1). -/
def rxCell (s : State) (i : Nat) : Byte :=
  match Memory.read s.rxBuf i with
  | some v => v
  | none => Config.rxBufDraw s.rxBufEpoch i

/-- `rx_buf[0 .. k)`. -/
def rxCells (s : State) (k : Nat) : List Byte := (List.range k).map (rxCell s)

/-- The declared payload length, `LE16(rx_buf[2], rx_buf[3])` (spec/42_synchronizer.md R164; 90_conflicts.md C1). -/
def rxLength (s : State) : Len := le16 (rxCell s 2) (rxCell s 3)

/-- `rx_expect = 8 + LE16(rx_buf[2], rx_buf[3])` (R32), 8 to 65543. -/
def rxExpect (s : State) : Nat := 8 + (rxLength s).toNat

/-- `rx_buf[rx_count] <- d ; rx_count <- rx_count + 1` (R163), the cell existing. -/
def rxAppend (d : Byte) (s : State) : State :=
  { s with rxBuf := Memory.write s.rxBuf s.rxCount.toNat d, rxCount := s.rxCount + 1#17 }

/-- The step's result, and its `out` bytes at the end of the host-side output queue (spec/20_memory.md R62; logs 4, 5). -/
def withResult (r : OpResult) (s : State) : State :=
  { s with result := some r, txOut := s.txOut ++ r.out }

/-- `return (status, data, out)` (spec/00_scope.md R14). -/
def ret (status : Status) (data : Word) (out : List Byte) (s : State) : Host.Outcome State Fault Refusal :=
  .next (withResult ⟨status, data, out⟩ s)

/-- `raise status`: `return (status, 0, [])` with no state change (R14, spec/60_exceptions.md R210). CFE takes no traps:
this is all that an error does, and there is nothing to return from (R214, R217). -/
def raise (status : Status) (s : State) : Host.Outcome State Fault Refusal := ret status 0#32 [] s

/-- The inputs still to be presented. -/
def withInput (xs : List HostInput) (s : State) : State := { s with input := xs }

/-- A step in which the host presents nothing: CFE "holds its state" (R223), and no result is returned (log 3). -/
def idleStep (s : State) : Host.Outcome State Fault Refusal := .next { s with result := none }

/-- The reset input (spec/70_reset_and_hazards.md R240): the values of R36, the buffer cells a new draw (log 1), no
result, nothing emitted. What the host has still to present and the bytes already sent are the host's and stay (R241). -/
def resetInput (s : State) : Host.Outcome State Fault Refusal :=
  .next { State.reset with rxBufEpoch := s.rxBufEpoch + 1, input := s.input, txOut := s.txOut }

end Sys2Proof.Machine
end

