-- ==== Sys2Proof/Machine/Block.lean ====
section
/-! DEFINITION. The operations that belong to no unit (spec/43_block.md R200, R201). -/

namespace Sys2Proof.Machine

/-- `NOP` (R200). -/
def execNop (s : State) : Host.Outcome State Fault Refusal := ret .ok 0#32 [] s

/-- The illegal operation word (R201): `raise ILLEGAL`, whatever the word's low byte looks like. -/
def execIllegal (s : State) : Host.Outcome State Fault Refusal := raise .illegal s

end Sys2Proof.Machine
end

