-- ==== Sys2Proof/Machine/Crc.lean ====
section
/-! DEFINITION. The CRC-32/ISO-HDLC function (spec/40_crc.md R110 to R112) and the CRC unit (R113 to R115). -/

namespace Sys2Proof.Machine

/-- One of the eight rounds of R110: least significant bit first, shift right. -/
def crcBit (c : Word) : Word :=
  if c.getLsbD 0 then (c >>> 1) ^^^ Config.crcPoly else c >>> 1

/-- `n` rounds. -/
def crcBits : Nat → Word → Word
  | 0, c => c
  | n + 1, c => crcBits n (crcBit c)

/-- `crcStep(c, b)` (R110). -/
def crcStep (c : Word) (b : Byte) : Word := crcBits 8 (c ^^^ zext32 b)

/-- The loop of R111 from any register value: the register after the bytes of `bytes` (R112). -/
def crcRegister (c : Word) (bytes : List Byte) : Word := bytes.foldl crcStep c

/-- `crc32(L)` (R111), total, the empty list included. -/
def crc32 (bytes : List Byte) : Word := crcRegister Config.crcInit bytes ^^^ Config.crcFinalXor

/-- `CRC.INIT` (R113). -/
def execCrcInit (s : State) : Host.Outcome State Fault Refusal :=
  ret .ok 0#32 [] { s with crcAcc := Config.crcInit }

/-- `CRC.BYTE d` (R114). -/
def execCrcByte (d : Byte) (s : State) : Host.Outcome State Fault Refusal :=
  ret .ok 0#32 [] { s with crcAcc := crcStep s.crcAcc d }

/-- `CRC.READ` (R115): `crc_acc` is not changed. -/
def execCrcRead (s : State) : Host.Outcome State Fault Refusal :=
  ret .ok (s.crcAcc ^^^ Config.crcFinalXor) [] s

end Sys2Proof.Machine
end

