-- ==== Sys2Proof/Machine/Codec.lean ====
section
/-! DEFINITION. The two codec functions (spec/41_frame_codec.md R130, R131, R133) over the wire frame
(spec/30_encoding.md R70 to R72). -/

namespace Sys2Proof.Machine

/-- The bytes the CRC of a frame covers: header and payload, no marker (R72). -/
def frameBody (cmd seq : Byte) (payload : List Byte) : List Byte :=
  headerBytes cmd seq (BitVec.ofNat 16 payload.length) ++ payload

/-- The frame of R130, for a payload of at most 65535 bytes. -/
def frameBytes (cmd seq : Byte) (payload : List Byte) : List Byte :=
  markerBytes ++ frameBody cmd seq payload ++ bytesLE32 (crc32 (frameBody cmd seq payload))

/-- `encode(cmd, seq, P)` (R130); a payload of more than 65535 bytes is `PARAM_ERROR`, "never a truncated length"
(R131). -/
def encodeFrame (cmd seq : Byte) (payload : List Byte) : Except Status (List Byte) :=
  if payload.length ≤ Config.maxPayload then .ok (frameBytes cmd seq payload) else .error .paramError

/-- What `decodeOne` returns (R133). -/
inductive DecodeResult where
  | frame (cmd seq : Byte) (payload : List Byte)
  | mismatch
  deriving DecidableEq, Repr

/-- Byte `i` of a candidate. -/
def byteAt (bytes : List Byte) (i : Nat) : Byte := bytes.getD i 0#8

/-- The declared payload length of a candidate, `LE16(B[2], B[3])` (R133). -/
def candidateLength (bytes : List Byte) : Nat := (le16 (byteAt bytes 2) (byteAt bytes 3)).toNat

/-- The domain of `decodeOne`: a byte list of length `8 + LE16(B[2], B[3])` (R133). -/
def isCandidate (bytes : List Byte) : Bool := decide (bytes.length = 8 + candidateLength bytes)

/-- `decodeOne(B)` (R133), for a list of its domain; what it answers on another list is never looked at (log 8). -/
def decodeOne (bytes : List Byte) : DecodeResult :=
  let n := candidateLength bytes
  let body := bytes.take (4 + n)
  let rcvd := le32 (byteAt bytes (4 + n)) (byteAt bytes (5 + n)) (byteAt bytes (6 + n)) (byteAt bytes (7 + n))
  if crc32 body = rcvd then .frame (byteAt bytes 0) (byteAt bytes 1) (body.drop 4) else .mismatch

end Sys2Proof.Machine
end

