-- ==== Sys2Proof/Machine/RxUnit.lean ====
section
/-! DEFINITION. The RX unit: the byte-stream synchronizer and the held frame (spec/42_synchronizer.md R160 to R176). -/

namespace Sys2Proof.Machine

/-- An accepted byte's end: status OK, the event code as `data` (R176). -/
def retEvent (e : RxEvent) (s : State) : Host.Outcome State Fault Refusal := ret .ok (eventData e) [] s

/-- SEEK1 (R161). -/
def rxSeek1 (d : Byte) (s : State) : Host.Outcome State Fault Refusal :=
  if d = Config.marker1 then retEvent .mark1 { s with rxState := .seek2 } else retEvent .noise s

/-- SEEK2 (R162): a mismatched byte, 0x55 included, is dropped and not tested again. -/
def rxSeek2 (d : Byte) (s : State) : Host.Outcome State Fault Refusal :=
  if d = Config.marker2 then retEvent .mark2 { s with rxState := .collect, rxCount := 0#17 }
  else retEvent .drop2 { s with rxState := .seek1 }

/-- The completion check on a state after its append (R164): `k ≥ 4` and `k = 8 + LE16(rx_buf[2], rx_buf[3])`. -/
def rxComplete (s : State) : Bool := decide (4 ≤ s.rxCount.toNat) && decide (s.rxCount.toNat = rxExpect s)

/-- After an append: the frame is held (R165), the candidate is discarded (R166), or collecting goes on (R164). -/
def rxCheck (s : State) : Host.Outcome State Fault Refusal :=
  if rxComplete s then
    match decodeOne (rxCells s s.rxCount.toNat) with
    | .frame _ _ _ => retEvent .frameOk { s with rxState := .seek1, rxFrameValid := true }
    | .mismatch => retEvent .frameBad { s with rxState := .seek1, rxCount := 0#17 }
  else retEvent .collect s

/-- COLLECT (R163, R167): the byte is stored whatever its value. The cell must exist (R29; log 6). -/
def rxCollect (d : Byte) (s : State) : Host.Outcome State Fault Refusal :=
  if s.rxCount.toNat < Config.rxCap then rxCheck (rxAppend d s) else .fault .rxBufIndex

/-- `RX.BYTE d` (R170). -/
def execRxByte (d : Byte) (s : State) : Host.Outcome State Fault Refusal :=
  if s.rxFrameValid then raise .busy s
  else
    match s.rxState with
    | .seek1 => rxSeek1 d s
    | .seek2 => rxSeek2 d s
    | .collect => rxCollect d s

/-- The cell an operation stores to: `rx_buf[rx_count]` for an `RX.BYTE` that is accepted in COLLECT, none for any
other operation or state (R29, R163, spec/20_memory.md R57). -/
def rxStoreIndex (i : Instr) (s : State) : Option Nat :=
  match i with
  | .rxByte _ => if s.rxFrameValid then none else if s.rxState = .collect then some s.rxCount.toNat else none
  | _ => none

/-- `RX.READHDR` (R171). -/
def execRxReadhdr (s : State) : Host.Outcome State Fault Refusal :=
  if s.rxFrameValid then ret .ok (le32 (rxCell s 0) (rxCell s 1) (rxCell s 2) (rxCell s 3)) [] s
  else raise .paramError s

/-- `RX.PEEK idx` (R172). -/
def execRxPeek (idx : Len) (s : State) : Host.Outcome State Fault Refusal :=
  if s.rxFrameValid then
    if idx.toNat < (rxLength s).toNat then ret .ok (zext32 (rxCell s (4 + idx.toNat))) [] s
    else raise .paramError s
  else raise .paramError s

/-- `RX.RELEASE` (R173): with no frame held it changes nothing. -/
def execRxRelease (s : State) : Host.Outcome State Fault Refusal :=
  ret .ok 0#32 [] (if s.rxFrameValid then { s with rxFrameValid := false, rxCount := 0#17 } else s)

/-- `RX.RESET` (R174): the cells of `rx_buf` keep their values. -/
def execRxReset (s : State) : Host.Outcome State Fault Refusal :=
  ret .ok 0#32 [] { s with rxState := .seek1, rxCount := 0#17, rxFrameValid := false }

/-- `RX.STATUS` (R175). -/
def execRxStatus (s : State) : Host.Outcome State Fault Refusal :=
  ret .ok (rxStatusWord s) [] s

end Sys2Proof.Machine
end

