-- ==== Sys2Proof/Machine/TxUnit.lean ====
section
/-! DEFINITION. The TX unit: the streaming encoder (spec/41_frame_codec.md R140 to R143). -/

namespace Sys2Proof.Machine

/-- `TX.START cmd, seq, len` (R140). -/
def execTxStart (cmd seq : Byte) (len : Len) (s : State) : Host.Outcome State Fault Refusal :=
  if s.txBusy then raise .paramError s
  else
    let h := headerBytes cmd seq len
    let c := crcRegister Config.crcInit h
    if len = 0#16 then
      ret .ok 0#32 (markerBytes ++ h ++ bytesLE32 (c ^^^ Config.crcFinalXor))
        { s with txCrc := c, txBusy := false, txRemaining := 0#16 }
    else
      ret .ok 0#32 (markerBytes ++ h) { s with txCrc := c, txBusy := true, txRemaining := len }

/-- `TX.BYTE d` (R141). The test `tx_remaining = 1` reads the state before the operation; the subtraction is truncated
to 16 bits, which a state that satisfies R27 never shows (log 7). -/
def execTxByte (d : Byte) (s : State) : Host.Outcome State Fault Refusal :=
  if s.txBusy then
    let c := crcStep s.txCrc d
    if s.txRemaining = 1#16 then
      ret .ok 0#32 (d :: bytesLE32 (c ^^^ Config.crcFinalXor))
        { s with txCrc := c, txRemaining := s.txRemaining - 1#16, txBusy := false }
    else
      ret .ok 0#32 [d] { s with txCrc := c, txRemaining := s.txRemaining - 1#16 }
  else raise .paramError s

/-- `TX.ABORT` (R142): `tx_crc` is unchanged, and what was emitted stays emitted. -/
def execTxAbort (s : State) : Host.Outcome State Fault Refusal :=
  ret .ok 0#32 [] { s with txBusy := false, txRemaining := 0#16 }

/-- `TX.STATUS` (R143). -/
def execTxStatus (s : State) : Host.Outcome State Fault Refusal :=
  ret .ok (txStatusWord s) [] s

end Sys2Proof.Machine
end

