-- ==== Sys2Proof/Machine/Dispatch.lean ====
section
/-! DEFINITION. The dispatch: one arm per operation of spec/30_encoding.md R82. -/

namespace Sys2Proof.Machine

def exec (i : Instr) (s : State) : Host.Outcome State Fault Refusal :=
  match i with
  | .nop => Sys2Proof.Machine.execNop s
  | .crcInit => Sys2Proof.Machine.execCrcInit s
  | .crcByte d => Sys2Proof.Machine.execCrcByte d s
  | .crcRead => Sys2Proof.Machine.execCrcRead s
  | .rxReset => Sys2Proof.Machine.execRxReset s
  | .rxByte d => Sys2Proof.Machine.execRxByte d s
  | .rxRelease => Sys2Proof.Machine.execRxRelease s
  | .rxReadhdr => Sys2Proof.Machine.execRxReadhdr s
  | .rxPeek idx => Sys2Proof.Machine.execRxPeek idx s
  | .rxStatus => Sys2Proof.Machine.execRxStatus s
  | .txStart cmd seq len => Sys2Proof.Machine.execTxStart cmd seq len s
  | .txByte d => Sys2Proof.Machine.execTxByte d s
  | .txAbort => Sys2Proof.Machine.execTxAbort s
  | .txStatus => Sys2Proof.Machine.execTxStatus s

end Sys2Proof.Machine
end

