-- ==== Sys2Proof/Machine/Step.lean ====
section
/-! DEFINITION. The step (spec/43_block.md R202): one input of the host, an operation word or the reset input. -/

namespace Sys2Proof.Machine

/-- One step. The host presents its inputs one at a time (spec/10_state.md R21, R22): the head of `input` is this
step's input (log 2). -/
def step (s : State) : Host.Outcome State Fault Refusal :=
  match s.input with
  | [] => idleStep s
  | .reset :: rest => resetInput (withInput rest s)
  | .word w :: rest =>
    match decode w with
    | .ok i => exec i (withInput rest s)
    | .error _ => execIllegal (withInput rest s)

/-- The host presents this operation word next (log 2): `step` takes it, and every other field stays. -/
def State.withFetchWord (s : State) (nbits w : Nat) : State :=
  { s with input := .word (tableWord nbits w) :: s.input }

end Sys2Proof.Machine
end

