-- ==== Sys2Proof/Machine/HostSide.lean ====
section
/-! DEFINITION. What the one host of CFE does around the step, as functions over the step: issuing operations and
collecting their results, the expansions of spec/30_encoding.md R87, reading and releasing held frames
(spec/42_synchronizer.md R179, spec/70_reset_and_hazards.md R245), session start (R243) and the read timeout
(spec/42_synchronizer.md R169). CFE itself uses nothing of this file. -/

namespace Sys2Proof.Machine

/-- The host presents one operation word before anything else and takes the result. -/
def issueWord (w : OpWord) (s : State) : Option (State × OpResult) :=
  match step (withInput (.word w :: s.input) s) with
  | .next t => t.result.map (fun r => (t, r))
  | .fault _ => none
  | .refused _ => none

/-- The host issues one operation. -/
def issue (i : Instr) (s : State) : Option (State × OpResult) := issueWord (encode i) s

/-- The host issues operations in order, "one per step" (spec/20_memory.md R60), and collects the results. -/
def issueAll : List Instr → State → Option (State × List OpResult)
  | [], s => some (s, [])
  | i :: rest, s => do
    let (t, r) ← issue i s
    let (u, rs) ← issueAll rest t
    some (u, r :: rs)

/-- The concatenation of the `out` lists. -/
def outBytes (rs : List OpResult) : List Byte := rs.flatMap (fun r => r.out)

/-- `CRC.BLOCK` (R87). -/
def crcBlockOps (bytes : List Byte) : List Instr := .crcInit :: bytes.map .crcByte ++ [.crcRead]

/-- `TX.FRAME` (R87). -/
def txFrameOps (cmd seq : Byte) (payload : List Byte) : List Instr :=
  .txStart cmd seq (BitVec.ofNat 16 payload.length) :: payload.map .txByte

/-- `RX.FEED` (R87), with no retry. -/
def rxFeedOps (bytes : List Byte) : List Instr := bytes.map .rxByte

/-- One byte of `RX.FEED` with the host's duty of R87: a byte that gets BUSY is issued again after `RX.RELEASE`. -/
def feedByte (d : Byte) (s : State) : Option (State × OpResult) := do
  let (t, r) ← issue (.rxByte d) s
  if r.status = .busy then
    let (u, _) ← issue .rxRelease t
    issue (.rxByte d) u
  else some (t, r)

/-- A frame as the host reads it. -/
structure Frame where
  cmd : Byte
  seq : Byte
  payload : List Byte
  deriving DecidableEq, Repr

/-- `RX.PEEK` at each index; `none` if one of them is not OK. -/
def peekAll : List Nat → State → Option (State × List Byte)
  | [], s => some (s, [])
  | k :: rest, s => do
    let (t, r) ← issue (.rxPeek (BitVec.ofNat 16 k)) s
    if r.status = .ok then
      let (u, bs) ← peekAll rest t
      some (u, r.data.setWidth 8 :: bs)
    else none

/-- The held frame, by `RX.READHDR` and `RX.PEEK 0 .. len-1` (R177); `none` if no frame is held. -/
def readFrame (s : State) : Option (State × Frame) := do
  let (t, r) ← issue .rxReadhdr s
  if r.status = .ok then
    let (u, payload) ← peekAll (List.range (r.data.extractLsb' 16 16).toNat) t
    some (u, ⟨r.data.extractLsb' 0 8, r.data.extractLsb' 8 8, payload⟩)
  else none

/-- The host scans a byte stream, "reading and releasing each held frame before presenting the next byte" (R179), and
collects the frames. -/
def scan : List Byte → State → Option (State × List Frame)
  | [], s => some (s, [])
  | d :: rest, s => do
    let (t, r) ← issue (.rxByte d) s
    if r.status = .ok ∧ r.data = eventData .frameOk then
      let (u, f) ← readFrame t
      let (v, _) ← issue .rxRelease u
      let (x, fs) ← scan rest v
      some (x, f :: fs)
    else
      let (x, fs) ← scan rest t
      some (x, fs)

/-- Walks garbage by R161 and R162; the flag says that the byte before was a 0x55 taken as EV_MARK1. -/
def cleanFrom : Bool → List Byte → Bool
  | after55, [] => !after55
  | false, d :: rest => cleanFrom (decide (d = Config.marker1)) rest
  | true, d :: rest => if d = Config.marker2 then false else cleanFrom false rest

/-- Clean garbage (R179): fed from SEEK1 it never enters COLLECT and ends in SEEK1. -/
def isClean (bytes : List Byte) : Bool := cleanFrom false bytes

/-- What the host presents at the start of a session (R243): `RX.RESET`, or the reset input instead of it, and `TX.ABORT`
if a frame could be in progress. Both decisions are the host's and stand here as arguments. R243 allows either order:
that the reset comes first is the model's choice (DESIGN CHOICE, log 15). -/
def sessionStartInputs (byResetInput frameInProgress : Bool) : List HostInput :=
  (if byResetInput then .reset else .word (encode .rxReset)) ::
    (if frameInProgress then [.word (encode .txAbort)] else [])

/-- What the host issues when its frame-read timeout expires (R169): nothing, or `RX.RESET`, as its OPEN parameter
`rx_reset_on_timeout` says (spec/92_eei_decisions.md D11; log 10). -/
def timeoutOps (rxResetOnTimeout : Bool) : List Instr := if rxResetOnTimeout then [.rxReset] else []

/-- The host hands the queued `out` bytes to the transport, in order (spec/20_memory.md R62; log 5). -/
def takeOut (s : State) : List Byte × State := (s.txOut, { s with txOut := [] })

end Sys2Proof.Machine
end

