-- ==== Sys2Proof/Machine/HostPayloads.lean ====
section
/-! DEFINITION. The command codes and payloads that the Session puts into frames (spec/30_encoding.md R90 to R93).
"A model of CFE must not make any CFE rule depend on them": nothing in the step does. -/

namespace Sys2Proof.Machine

/-- The command codes (R90). -/
inductive Command where
  | handshake
  | startUpdate
  | data
  | endUpdate
  | queryVersion
  | ack
  deriving DecidableEq, Repr

/-- The code of a command (R90). -/
def commandCode : Command → Byte
  | .handshake => 0x01#8
  | .startUpdate => 0x02#8
  | .data => 0x03#8
  | .endUpdate => 0x04#8
  | .queryVersion => 0x05#8
  | .ack => 0x06#8

/-- The ACK status codes of payload byte 0 (R93), which are not CFE's operation statuses. -/
inductive AckStatus where
  | ok
  | frameCrcError
  | paramError
  | flashError
  | stateError
  deriving DecidableEq, Repr

/-- The code of an ACK status (R93). -/
def ackStatusCode : AckStatus → Byte
  | .ok => 0x00#8
  | .frameCrcError => 0x01#8
  | .paramError => 0x02#8
  | .flashError => 0x03#8
  | .stateError => 0x04#8

/-- The reference's HANDSHAKE payload, "PC_HANDSHAKE" (R91; another host may use another string, 93 I1). -/
def handshakeReference : List Byte :=
  [0x50#8, 0x43#8, 0x5F#8, 0x48#8, 0x41#8, 0x4E#8, 0x44#8, 0x53#8, 0x48#8, 0x41#8, 0x4B#8, 0x45#8]

/-- START_UPDATE payload (R91). -/
def startUpdatePayload (imageSize imageCrc version : Word) : List Byte :=
  bytesLE32 imageSize ++ bytesLE32 imageCrc ++ bytesLE32 version

/-- DATA payload (R91). -/
def dataPayload (offset : Word) (chunk : List Byte) : List Byte := bytesLE32 offset ++ chunk

/-- END_UPDATE payload: one arbitrary byte (R91). -/
def endUpdatePayload (placeholder : Byte) : List Byte := [placeholder]

/-- ACK payload, with the further bytes it may carry (R92). -/
def ackPayload (status : AckStatus) (cmd seq : Byte) (more : List Byte) : List Byte :=
  ackStatusCode status :: cmd :: seq :: more

/-- The Session's check of a frame as the ACK for (c, s) (R92). -/
def ackAccepted (f : Frame) (c s : Byte) : Bool :=
  decide (f.cmd = commandCode .ack) && decide (3 ≤ f.payload.length) && decide (byteAt f.payload 1 = c)
    && decide (byteAt f.payload 2 = s) && decide (byteAt f.payload 0 = ackStatusCode .ok)

end Sys2Proof.Machine
end

