-- ==== Sys2Proof/Safety.lean ====
section
/-! DEFINITION. What a safe run of CFE is: the invariants of spec/10_state.md R27 and R33, what of a state the host can
ever see (R26, R29), and the state of each unit (spec/20_memory.md R61). -/

namespace Sys2Proof.Machine

/-- The TX invariant (R27). -/
abbrev TxInv (s : State) : Prop := s.txBusy = false ↔ s.txRemaining = 0#16

/-- The RX invariants (R33 (a), (b), (c)). -/
structure RxInv (s : State) : Prop where
  heldState : s.rxFrameValid = true → s.rxState = .seek1
  heldCount : s.rxFrameValid = true → s.rxCount.toNat = rxExpect s
  heldCrc : s.rxFrameValid = true →
    crc32 (rxCells s (s.rxCount.toNat - 4)) =
      le32 (rxCell s (s.rxCount.toNat - 4)) (rxCell s (s.rxCount.toNat - 3))
        (rxCell s (s.rxCount.toNat - 2)) (rxCell s (s.rxCount.toNat - 1))
  collectFree : s.rxState = .collect → s.rxFrameValid = false
  collectRoom : s.rxState = .collect → s.rxCount.toNat ≤ 65542
  collectShort : s.rxState = .collect → 4 ≤ s.rxCount.toNat → s.rxCount.toNat < rxExpect s
  seekEmpty : s.rxState ≠ .collect → s.rxFrameValid = false → s.rxCount = 0#17

/-- Every cell below `rx_count` has been written since the last reset input, so the unspecified contents of the others
are never read (R29, R240). -/
def CellsWritten (s : State) : Prop := ∀ i, i < s.rxCount.toNat → (Memory.read s.rxBuf i).isSome = true

/-- The invariant of the machine: what reset establishes and every step keeps. -/
structure Inv (s : State) : Prop where
  buffer : Memory.wf s.rxBuf = true
  written : CellsWritten s
  tx : TxInv s
  rx : RxInv s

/-- Two states show the host the same: they agree on everything but `tx_crc` while the TX unit is idle (R26), the
cells at or above `rx_count` (R29) and the draw behind them (log 1). -/
structure SameToHost (s t : State) : Prop where
  crcAcc : s.crcAcc = t.crcAcc
  txBusy : s.txBusy = t.txBusy
  txRemaining : s.txRemaining = t.txRemaining
  txCrc : s.txBusy = true → s.txCrc = t.txCrc
  rxState : s.rxState = t.rxState
  rxCount : s.rxCount = t.rxCount
  rxFrameValid : s.rxFrameValid = t.rxFrameValid
  cells : ∀ i, i < s.rxCount.toNat → rxCell s i = rxCell t i
  input : s.input = t.input
  result : s.result = t.result
  txOut : s.txOut = t.txOut

/-- The CRC unit's state is the same (R61). -/
def SameCrcUnit (s t : State) : Prop := s.crcAcc = t.crcAcc

/-- The TX unit's state is the same (R61). -/
def SameTxUnit (s t : State) : Prop :=
  s.txBusy = t.txBusy ∧ s.txRemaining = t.txRemaining ∧ s.txCrc = t.txCrc

/-- The RX unit's registers are the same, and so is every byte of the RX buffer (R61). -/
def SameRxUnit (s t : State) : Prop :=
  s.rxState = t.rxState ∧ s.rxCount = t.rxCount ∧ s.rxFrameValid = t.rxFrameValid ∧ ∀ a, rxCell s a = rxCell t a

/-- No unit's state differs (spec/60_exceptions.md R210). -/
def SameUnits (s t : State) : Prop := SameCrcUnit s t ∧ SameTxUnit s t ∧ SameRxUnit s t

/-- The byte an operation adds to the CRC unit's message, if it adds one. -/
def crcByteOf : Instr → Option Byte
  | .crcByte d => some d
  | _ => none

/-- A source line assembles, to words that decode to these operations in this order (spec/30_encoding.md R86, R87). -/
def AssemblesTo (l : AsmLine) (ops : List Instr) : Prop :=
  ∃ ws, l.assemble = some ws ∧ ws.map decode = ops.map .ok

/-- The operation belongs to the TX unit (spec/30_encoding.md R82). -/
def isTxOp (i : Instr) : Bool := decide (i.cfeUnit = .tx)

/-- The operation codes of the map, by format (spec/30_encoding.md R81, R82). -/
def formatNOps : List Byte := [0x00#8, 0x10#8, 0x12#8, 0x20#8, 0x22#8, 0x23#8, 0x25#8, 0x32#8, 0x33#8]

/-- Format B (R81). -/
def formatBOps : List Byte := [0x11#8, 0x21#8, 0x31#8]

/-- Format I (R81). -/
def formatIOps : List Byte := [0x24#8]

/-- Format H (R81). -/
def formatHOps : List Byte := [0x30#8]

/-- The operations that only read (spec/20_memory.md R56). -/
def isReadOp : Instr → Bool
  | .crcRead => true
  | .rxReadhdr => true
  | .rxPeek _ => true
  | .rxStatus => true
  | .txStatus => true
  | _ => false

end Sys2Proof.Machine
end

