-- ==== Sys2Proof/Certificates/Slice0/Obligations.lean ====
section
/-! DEFINITION. The statements for the provers. Each docstring names the rule of spec/ it formalises. -/

open Sys2Proof Sys2Proof.Machine

/-! ## The step and the words -/

/-- spec/43_block.md R202: a word that a row matches runs the rule named by that row, applied to the state. The host's
other inputs stay for the steps after it (log 2). -/
def Obligations.StepRunsDecodedOperation : Prop :=
  ∀ (s : State) (w : OpWord) (rest : List HostInput) (i : Instr),
    s.input = .word w :: rest → decode w = .ok i → step s = exec i (withInput rest s)

/-- A table word the host presents is the very next operation (log 2): the step runs it on the unchanged state. -/
def Obligations.PresentedWordRunsNext : Prop :=
  ∀ (s : State) (nbits w : Nat) (i : Instr),
    decodeTableWord nbits w = some i → step (s.withFetchWord nbits w) = exec i s

/-- Words written out from the patterns of spec/30_encoding.md R88 and the vectors of spec/95_test_vectors.md. -/
def Obligations.SpecWordsDecodeAsPrinted : Prop :=
  decode 0x0000000000#40 = .ok .nop ∧
  decode 0x1000000000#40 = .ok .crcInit ∧
  decode 0x1100000031#40 = .ok (.crcByte 0x31#8) ∧
  decode 0x21000000AA#40 = .ok (.rxByte 0xAA#8) ∧
  decode 0x240000FFFF#40 = .ok (.rxPeek 0xFFFF#16) ∧
  decode 0x3000030106#40 = .ok (.txStart 0x06#8 0x01#8 3#16) ∧
  decode 0x2100000155#40 = .error .reservedOperandBit ∧
  decode 0x2600000000#40 = .error .unassignedOp

/-- spec/30_encoding.md R80 to R82: no bit of an operation is lost in its word. -/
def Obligations.DecodeInvertsEncode : Prop :=
  ∀ i : Instr, decode (encode i) = .ok i

/-- spec/30_encoding.md R80 to R84: every legal word is the word of the operation it decodes to. -/
def Obligations.EncodeInvertsDecode : Prop :=
  ∀ (w : OpWord) (i : Instr), decode w = .ok i → encode i = w

/-- spec/30_encoding.md R88: at most one row of the pattern table selects a word, and the decoder reads a word as an
operation exactly if a row selects it, the row of that operation's mnemonic. "At most one row matches any word" is an
inference the spec marks as its own. -/
def Obligations.OneTableRowPerLegalWord : Prop :=
  ∀ w : OpWord,
    (opRows.filter (fun r => r.selects w)).length ≤ 1 ∧
    (∀ i, decode w = .ok i → ∃ r ∈ opRows, r.selects w = true ∧ r.mnemonic = i.mnemonic) ∧
    (∀ r ∈ opRows, r.selects w = true → ∃ i, decode w = .ok i ∧ i.mnemonic = r.mnemonic)

/-- spec/30_encoding.md R83: a legal `op` with a 1 in a bit its format marks 0 is illegal: status ILLEGAL, no state
change, no output. Format H has no such bit. -/
def Obligations.ReservedOperandBitsAreIllegal : Prop :=
  (∀ (s : State) (w : OpWord) (rest : List HostInput), s.input = .word w :: rest →
    (opField w ∈ formatNOps ∧ operandField w ≠ 0#32) ∨
    (opField w ∈ formatBOps ∧ (operandField w).extractLsb' 8 24 ≠ 0#24) ∨
    (opField w ∈ formatIOps ∧ (operandField w).extractLsb' 16 16 ≠ 0#16) →
    decode w = .error .reservedOperandBit ∧
    step s = .next { s with input := rest, result := some ⟨.illegal, 0#32, []⟩ }) ∧
  (∀ w : OpWord, opField w ∈ formatHOps → ∃ i, decode w = .ok i)

/-- spec/30_encoding.md R84: every `op` outside the map is illegal, 242 of the 256 values, in the ranges the rule
prints. -/
def Obligations.UnassignedOpcodesAreIllegal : Prop :=
  (∀ (s : State) (w : OpWord) (rest : List HostInput), s.input = .word w :: rest →
    opField w ∉ formatNOps ++ formatBOps ++ formatIOps ++ formatHOps →
    decode w = .error .unassignedOp ∧
    step s = .next { s with input := rest, result := some ⟨.illegal, 0#32, []⟩ }) ∧
  (∀ op : Byte, op ∉ formatNOps ++ formatBOps ++ formatIOps ++ formatHOps ↔
    (0x01 ≤ op.toNat ∧ op.toNat ≤ 0x0F) ∨ (0x13 ≤ op.toNat ∧ op.toNat ≤ 0x1F) ∨
    (0x26 ≤ op.toNat ∧ op.toNat ≤ 0x2F) ∨ 0x34 ≤ op.toNat) ∧
  ((List.range 256).filter (fun k =>
    decide (BitVec.ofNat 8 k ∉ formatNOps ++ formatBOps ++ formatIOps ++ formatHOps))).length = 242

/-- spec/43_block.md R201: a word that matches no row of R88 returns (ILLEGAL, 0, []); no state of any unit changes,
no byte is consumed, nothing is emitted, nothing is kept. -/
def Obligations.IllegalWordHasNoEffect : Prop :=
  ∀ (s : State) (w : OpWord) (rest : List HostInput), s.input = .word w :: rest →
    (∀ r ∈ opRows, r.selects w = false) →
    step s = .next { s with input := rest, result := some ⟨.illegal, 0#32, []⟩ }

/-- spec/30_encoding.md R86, R87, kind of line by kind of line: the operand values that assemble and the operations the
words decode to; the operand values that are an assembly error (byte > 255, index or length > 65535, also inside a
pseudo-operation); `.word` emits its word unchecked; a poll without a byte emits nothing. A line is a syntax tree
(log 13). -/
def Obligations.AssembledWordsDecodeToTheLine : Prop :=
  (AssemblesTo .nop [.nop] ∧ AssemblesTo .crcInit [.crcInit] ∧ AssemblesTo .crcRead [.crcRead] ∧
    AssemblesTo .rxReset [.rxReset] ∧ AssemblesTo .rxRelease [.rxRelease] ∧ AssemblesTo .rxReadhdr [.rxReadhdr] ∧
    AssemblesTo .rxStatus [.rxStatus] ∧ AssemblesTo .txAbort [.txAbort] ∧ AssemblesTo .txStatus [.txStatus]) ∧
  (∀ d : Nat,
    (d ≤ 255 →
      AssemblesTo (.crcByte d) [.crcByte (BitVec.ofNat 8 d)] ∧
      AssemblesTo (.rxByte d) [.rxByte (BitVec.ofNat 8 d)] ∧
      AssemblesTo (.txByte d) [.txByte (BitVec.ofNat 8 d)]) ∧
    (255 < d →
      (AsmLine.crcByte d).assemble = none ∧ (AsmLine.rxByte d).assemble = none ∧
      (AsmLine.txByte d).assemble = none)) ∧
  (∀ idx : Nat,
    (idx ≤ 65535 → AssemblesTo (.rxPeek idx) [.rxPeek (BitVec.ofNat 16 idx)]) ∧
    (65535 < idx → (AsmLine.rxPeek idx).assemble = none)) ∧
  (∀ cmd seq len : Nat,
    (cmd ≤ 255 → seq ≤ 255 → len ≤ 65535 →
      AssemblesTo (.txStart cmd seq len)
        [.txStart (BitVec.ofNat 8 cmd) (BitVec.ofNat 8 seq) (BitVec.ofNat 16 len)]) ∧
    (255 < cmd ∨ 255 < seq ∨ 65535 < len → (AsmLine.txStart cmd seq len).assemble = none)) ∧
  (∀ bytes : List Nat,
    ((∀ b ∈ bytes, b ≤ 255) →
      AssemblesTo (.crcBlock bytes)
        ([.crcInit] ++ bytes.map (fun b => .crcByte (BitVec.ofNat 8 b)) ++ [.crcRead]) ∧
      AssemblesTo (.rxFeed bytes) (bytes.map (fun b => .rxByte (BitVec.ofNat 8 b)))) ∧
    ((∃ b ∈ bytes, 255 < b) →
      (AsmLine.crcBlock bytes).assemble = none ∧ (AsmLine.rxFeed bytes).assemble = none)) ∧
  (∀ (cmd seq : Nat) (payload : List Nat),
    (cmd ≤ 255 → seq ≤ 255 → payload.length ≤ 65535 → (∀ b ∈ payload, b ≤ 255) →
      AssemblesTo (.txFrame cmd seq payload)
        (.txStart (BitVec.ofNat 8 cmd) (BitVec.ofNat 8 seq) (BitVec.ofNat 16 payload.length) ::
          payload.map (fun b => .txByte (BitVec.ofNat 8 b)))) ∧
    (255 < cmd ∨ 255 < seq ∨ 65535 < payload.length ∨ (∃ b ∈ payload, 255 < b) →
      (AsmLine.txFrame cmd seq payload).assemble = none)) ∧
  (∀ w : OpWord, (AsmLine.word w).assemble = some [w]) ∧
  AsmLine.emptyPoll.assemble = some []

/-- The step with nothing presented: CFE holds its state (spec/60_exceptions.md R223) and returns no result. That
such a step exists is the model's choice (log 3). -/
def Obligations.IdlePortHoldsState : Prop :=
  ∀ s : State, s.input = [] → step s = .next { s with result := none }

/-! ## Reset -/

/-- spec/70_reset_and_hazards.md R240: what the reset input does from any state: the values of R36, no result, no byte
emitted. The rule leaves the buffer cells unspecified, so nothing is said of them here. -/
def Obligations.ResetInputFromAnyState : Prop :=
  ∀ (s : State) (rest : List HostInput), s.input = .reset :: rest →
    ∃ t, step s = .next t ∧
      t.crcAcc = 0xFFFFFFFF#32 ∧ t.txBusy = false ∧ t.txRemaining = 0#16 ∧ t.txCrc = 0xFFFFFFFF#32 ∧
      t.rxState = .seek1 ∧ t.rxCount = 0#17 ∧ t.rxFrameValid = false ∧
      t.result = none ∧ t.txOut = s.txOut

/-- spec/10_state.md R36, R37: the reset values. The last two clauses are the model's form of "unspecified" (log 1, a
DESIGN CHOICE): every cell of `rx_buf` is the free value, a new one after each reset input. -/
def Obligations.ResetStateValues : Prop :=
  State.reset.crcAcc = 0xFFFFFFFF#32 ∧ State.reset.txBusy = false ∧ State.reset.txRemaining = 0#16 ∧
  State.reset.txCrc = 0xFFFFFFFF#32 ∧ rxStateCode State.reset.rxState = 0#2 ∧ State.reset.rxCount = 0#17 ∧
  State.reset.rxFrameValid = false ∧
  (∀ i, rxCell State.reset i = Config.rxBufDraw State.reset.rxBufEpoch i) ∧
  (∀ (s t : State) (rest : List HostInput), s.input = .reset :: rest → step s = .next t →
    ∀ i, rxCell t i = Config.rxBufDraw (s.rxBufEpoch + 1) i)

/-! ## Block level and CRC unit -/

/-- spec/43_block.md R200: NOP, its only legal word, its whole effect. -/
def Obligations.NopDoesNothing : Prop :=
  (∀ x : Word, decode (opWord 0x00#8 x) = if x = 0#32 then .ok .nop else .error .reservedOperandBit) ∧
  (∀ s : State, exec .nop s = .next { s with result := some ⟨.ok, 0#32, []⟩ })

/-- spec/40_crc.md R113: CRC.INIT. -/
def Obligations.CrcInitStartsNewCrc : Prop :=
  (∀ x : Word, decode (opWord 0x10#8 x) = if x = 0#32 then .ok .crcInit else .error .reservedOperandBit) ∧
  (∀ s : State, exec .crcInit s =
    .next { s with crcAcc := 0xFFFFFFFF#32, result := some ⟨.ok, 0#32, []⟩ }) ∧
  State.reset.crcAcc = 0xFFFFFFFF#32

/-- spec/40_crc.md R114: CRC.BYTE, with the rule's two corner values. -/
def Obligations.CrcByteStepsTheRegister : Prop :=
  (∀ x : Word, decode (opWord 0x11#8 x) =
    if x.extractLsb' 8 24 = 0#24 then .ok (.crcByte (x.extractLsb' 0 8)) else .error .reservedOperandBit) ∧
  (∀ (s : State) (d : Byte), exec (.crcByte d) s =
    .next { s with crcAcc := crcStep s.crcAcc d, result := some ⟨.ok, 0#32, []⟩ }) ∧
  crcStep 0xFFFFFFFF#32 0x00#8 = 0x2DFD1072#32 ∧ crcStep 0#32 0#8 = 0#32 ∧
  crcStep 0xFFFFFFFF#32 0x31#8 = 0x7C231048#32

/-- spec/40_crc.md R115, the operation: CRC.READ returns `crc_acc ^ 0xFFFFFFFF` and changes nothing. What the returned
value is in terms of the bytes is `CrcUnitReadsCrc32OfItsBytes`. -/
def Obligations.CrcReadReturnsFinalXor : Prop :=
  (∀ x : Word, decode (opWord 0x12#8 x) = if x = 0#32 then .ok .crcRead else .error .reservedOperandBit) ∧
  (∀ s : State, exec .crcRead s =
    .next { s with result := some ⟨.ok, s.crcAcc ^^^ 0xFFFFFFFF#32, []⟩ })

/-- spec/40_crc.md R110: eight rounds, least significant bit first, with 0xEDB88320; and that the table-driven form
which spec/92_eei_decisions.md D34 admits gives the same register for every input, an inference from R110. -/
def Obligations.CrcStepBitwiseEqualsTableDriven : Prop :=
  ∀ (c : Word) (b : Byte),
    crcStep c b = Nat.repeat
      (fun x : Word => if x.getLsbD 0 then (x >>> 1) ^^^ 0xEDB88320#32 else x >>> 1) 8 (c ^^^ b.setWidth 32) ∧
    crcStep c b = (c >>> 8) ^^^ crcStep 0#32 (c.setWidth 8 ^^^ b)

/-- spec/40_crc.md R116: the check value of "123456789", and the residue 0xDEBB20E3 of every message followed by its
own CRC. The spec marks both as general knowledge and as computed from R110 and R111, on which they rest here. -/
def Obligations.CrcCheckValueAndResidue : Prop :=
  crc32 [0x31#8, 0x32#8, 0x33#8, 0x34#8, 0x35#8, 0x36#8, 0x37#8, 0x38#8, 0x39#8] = 0xCBF43926#32 ∧
  (∀ m : List Byte, crcRegister 0xFFFFFFFF#32 (m ++ bytesLE32 (crc32 m)) = 0xDEBB20E3#32)

/-- After CRC.INIT, CRC.READ returns `crc32` of the bytes given to CRC.BYTE since, whatever reads and whatever
operations of the other units stand between them: the inference that spec/40_crc.md R112, R115 and R117 mark as the
spec's own, "`CRC.READ` returns `crc32([b0..b(n-1)])`". -/
def Obligations.CrcUnitReadsCrc32OfItsBytes : Prop :=
  ∀ (s : State) (ops : List Instr), Inv s → .crcInit ∉ ops →
    ∃ t rs, issueAll (.crcInit :: ops ++ [.crcRead]) s = some (t, rs) ∧
      rs.getLast? = some ⟨.ok, crc32 (ops.filterMap crcByteOf), []⟩

/-! ## Codec and TX unit -/

/-- spec/41_frame_codec.md R140: TX.START. -/
def Obligations.TxStartBeginsAFrame : Prop :=
  (∀ x : Word, decode (opWord 0x30#8 x) =
    .ok (.txStart (x.extractLsb' 0 8) (x.extractLsb' 8 8) (x.extractLsb' 16 16))) ∧
  (∀ (s : State) (cmd seq : Byte) (len : Len), s.txBusy = true →
    exec (.txStart cmd seq len) s = .next { s with result := some ⟨.paramError, 0#32, []⟩ }) ∧
  (∀ (s : State) (cmd seq : Byte), s.txBusy = false →
    exec (.txStart cmd seq 0#16) s = .next { s with
      txCrc := crcRegister 0xFFFFFFFF#32 [cmd, seq, 0x00#8, 0x00#8], txBusy := false, txRemaining := 0#16,
      result := some ⟨.ok, 0#32,
        [0x55#8, 0xAA#8, cmd, seq, 0x00#8, 0x00#8] ++ bytesLE32 (crc32 [cmd, seq, 0x00#8, 0x00#8])⟩,
      txOut := s.txOut ++
        ([0x55#8, 0xAA#8, cmd, seq, 0x00#8, 0x00#8] ++ bytesLE32 (crc32 [cmd, seq, 0x00#8, 0x00#8])) }) ∧
  (∀ (s : State) (cmd seq : Byte) (len : Len), s.txBusy = false → len ≠ 0#16 →
    exec (.txStart cmd seq len) s = .next { s with
      txCrc := crcRegister 0xFFFFFFFF#32 [cmd, seq, len.extractLsb' 0 8, len.extractLsb' 8 8],
      txBusy := true, txRemaining := len,
      result := some ⟨.ok, 0#32, [0x55#8, 0xAA#8, cmd, seq, len.extractLsb' 0 8, len.extractLsb' 8 8]⟩,
      txOut := s.txOut ++ [0x55#8, 0xAA#8, cmd, seq, len.extractLsb' 0 8, len.extractLsb' 8 8] })

/-- spec/41_frame_codec.md R141: TX.BYTE. The TX invariant (R27) excludes a busy unit that needs no byte. -/
def Obligations.TxByteSuppliesPayload : Prop :=
  (∀ x : Word, decode (opWord 0x31#8 x) =
    if x.extractLsb' 8 24 = 0#24 then .ok (.txByte (x.extractLsb' 0 8)) else .error .reservedOperandBit) ∧
  (∀ (s : State) (d : Byte), s.txBusy = false →
    exec (.txByte d) s = .next { s with result := some ⟨.paramError, 0#32, []⟩ }) ∧
  (∀ (s : State) (d : Byte), TxInv s → s.txBusy = true → s.txRemaining = 1#16 →
    exec (.txByte d) s = .next { s with
      txCrc := crcStep s.txCrc d, txRemaining := 0#16, txBusy := false,
      result := some ⟨.ok, 0#32, d :: bytesLE32 (crcStep s.txCrc d ^^^ 0xFFFFFFFF#32)⟩,
      txOut := s.txOut ++ (d :: bytesLE32 (crcStep s.txCrc d ^^^ 0xFFFFFFFF#32)) }) ∧
  (∀ (s : State) (d : Byte), TxInv s → s.txBusy = true → s.txRemaining ≠ 1#16 →
    ∃ t, exec (.txByte d) s = .next t ∧ t.txRemaining.toNat + 1 = s.txRemaining.toNat ∧
      t = { s with
        txCrc := crcStep s.txCrc d, txRemaining := s.txRemaining - 1#16,
        result := some ⟨.ok, 0#32, [d]⟩, txOut := s.txOut ++ [d] })

/-- spec/41_frame_codec.md R142: TX.ABORT; `tx_crc` is unchanged, bytes already emitted stay emitted, and on an idle
unit nothing but the result changes. -/
def Obligations.TxAbortReturnsToIdle : Prop :=
  (∀ x : Word, decode (opWord 0x32#8 x) = if x = 0#32 then .ok .txAbort else .error .reservedOperandBit) ∧
  (∀ s : State, exec .txAbort s = .next { s with
    txBusy := false, txRemaining := 0#16, result := some ⟨.ok, 0#32, []⟩ }) ∧
  (∀ s : State, TxInv s → s.txBusy = false →
    exec .txAbort s = .next { s with result := some ⟨.ok, 0#32, []⟩ })

/-- spec/41_frame_codec.md R143: TX.STATUS, bit 0 `tx_busy`, bits 15:1 zero, bits 31:16 `tx_remaining`. -/
def Obligations.TxStatusShowsBusyAndRemaining : Prop :=
  (∀ x : Word, decode (opWord 0x33#8 x) = if x = 0#32 then .ok .txStatus else .error .reservedOperandBit) ∧
  (∀ s : State, ∃ data : Word, exec .txStatus s = .next { s with result := some ⟨.ok, data, []⟩ } ∧
    data.getLsbD 0 = s.txBusy ∧ data.extractLsb' 1 15 = 0#15 ∧ data.extractLsb' 16 16 = s.txRemaining)

/-- spec/41_frame_codec.md R131: a payload of more than 65535 bytes is PARAM_ERROR, never a truncated length; any other
gives a frame; TX.FRAME of a longer payload is rejected at assembly. -/
def Obligations.EncodeRejectsOnlyLongPayloads : Prop :=
  (∀ (cmd seq : Byte) (p : List Byte), 65535 < p.length → encodeFrame cmd seq p = .error .paramError) ∧
  (∀ (cmd seq : Byte) (p : List Byte), p.length ≤ 65535 → ∃ f, encodeFrame cmd seq p = .ok f) ∧
  (∀ (cmd seq : Nat) (p : List Nat), 65535 < p.length → (AsmLine.txFrame cmd seq p).assemble = none)

/-- spec/30_encoding.md R70, R71, R72: the wire frame byte by byte, its length, and what its CRC covers. -/
def Obligations.EncodedFrameHasWireLayout : Prop :=
  ∀ (cmd seq : Byte) (p f : List Byte), encodeFrame cmd seq p = .ok f →
    f.length = 10 + p.length ∧
    f[0]? = some 0x55#8 ∧ f[1]? = some 0xAA#8 ∧ f[2]? = some cmd ∧ f[3]? = some seq ∧
    (∃ low high, f[4]? = some low ∧ f[5]? = some high ∧ low.toNat + 256 * high.toNat = p.length) ∧
    (∀ k, k < p.length → f[6 + k]? = p[k]?) ∧
    f.drop (6 + p.length) = bytesLE32 (crc32 ((f.take (6 + p.length)).drop 2))

/-- Decoding the encoded frame returns the original triple: the inference that spec/41_frame_codec.md R135 marks as the
spec's own, from R130 and R133. -/
def Obligations.DecodeOneInvertsEncode : Prop :=
  ∀ (cmd seq : Byte) (p f : List Byte), encodeFrame cmd seq p = .ok f →
    isCandidate (f.drop 2) = true ∧ decodeOne (f.drop 2) = .frame cmd seq p

/-- spec/41_frame_codec.md R136: a valid candidate with exactly one bit flipped, outside the two length bytes, is a
MISMATCH. -/
def Obligations.SingleBitErrorIsDetected : Prop :=
  ∀ (b : List Byte) (cmd seq : Byte) (p : List Byte), isCandidate b = true → decodeOne b = .frame cmd seq p →
    ∀ i k, i < b.length → i ≠ 2 → i ≠ 3 → k < 8 →
      isCandidate (b.set i (byteAt b i ^^^ (1#8 <<< k))) = true ∧
      decodeOne (b.set i (byteAt b i ^^^ (1#8 <<< k))) = .mismatch

/-- From an idle TX unit the operations of TX.FRAME, with operations of the other units interleaved anywhere, all return
OK, and their `out` bytes are `encode(cmd, seq, P)`: the inference that spec/41_frame_codec.md R144 marks as the spec's
own, from R130, R140 and R141. -/
def Obligations.TxStreamIsTheEncodedFrame : Prop :=
  ∀ (s : State) (cmd seq : Byte) (p f : List Byte) (ops : List Instr),
    Inv s → s.txBusy = false → encodeFrame cmd seq p = .ok f → ops.filter isTxOp = txFrameOps cmd seq p →
    ∃ t rs, issueAll ops s = some (t, rs) ∧
      (∀ (k : Nat) (i : Instr), ops[k]? = some i → isTxOp i = true →
        ∃ r, rs[k]? = some r ∧ r.status = .ok) ∧
      outBytes rs = f ∧ t.txOut = s.txOut ++ f ∧ t.txBusy = false

/-! ## RX unit -/

/-- spec/42_synchronizer.md R170, R212: RX.BYTE's word, and BUSY while a frame is held: no state changes and the byte
is not consumed. -/
def Obligations.RxByteIsBusyWhileHeld : Prop :=
  (∀ x : Word, decode (opWord 0x21#8 x) =
    if x.extractLsb' 8 24 = 0#24 then .ok (.rxByte (x.extractLsb' 0 8)) else .error .reservedOperandBit) ∧
  (∀ (s : State) (d : Byte), s.rxFrameValid = true →
    exec (.rxByte d) s = .next { s with result := some ⟨.busy, 0#32, []⟩ })

/-- spec/42_synchronizer.md R161: SEEK1 (events of R176). -/
def Obligations.RxByteInSeek1 : Prop :=
  ∀ (s : State) (d : Byte), s.rxFrameValid = false → s.rxState = .seek1 →
    exec (.rxByte d) s =
      if d = 0x55#8 then .next { s with rxState := .seek2, result := some ⟨.ok, 1#32, []⟩ }
      else .next { s with result := some ⟨.ok, 0#32, []⟩ }

/-- spec/42_synchronizer.md R162: SEEK2; a mismatched byte, 0x55 included, is dropped and not tested again. -/
def Obligations.RxByteInSeek2 : Prop :=
  ∀ (s : State) (d : Byte), s.rxFrameValid = false → s.rxState = .seek2 →
    exec (.rxByte d) s =
      if d = 0xAA#8 then .next { s with rxState := .collect, rxCount := 0#17, result := some ⟨.ok, 2#32, []⟩ }
      else .next { s with rxState := .seek1, result := some ⟨.ok, 3#32, []⟩ }

/-- spec/42_synchronizer.md R163 to R167: COLLECT. Every byte, marker values included, is stored at `rx_count`; no other
cell changes; then the candidate is not complete, or is held, or is discarded. -/
def Obligations.RxByteInCollect : Prop :=
  ∀ (s : State) (d : Byte), s.rxFrameValid = false → s.rxState = .collect → s.rxCount.toNat < 65543 →
    ∃ t, exec (.rxByte d) s = .next t ∧
      rxCell t s.rxCount.toNat = d ∧ (∀ a, a ≠ s.rxCount.toNat → rxCell t a = rxCell s a) ∧
      SameCrcUnit s t ∧ SameTxUnit s t ∧ t.txOut = s.txOut ∧
      (¬ (4 ≤ s.rxCount.toNat + 1 ∧ s.rxCount.toNat + 1 = 8 + (le16 (rxCell t 2) (rxCell t 3)).toNat) →
        t.rxState = .collect ∧ t.rxCount.toNat = s.rxCount.toNat + 1 ∧ t.rxFrameValid = false ∧
        t.result = some ⟨.ok, 4#32, []⟩) ∧
      (4 ≤ s.rxCount.toNat + 1 ∧ s.rxCount.toNat + 1 = 8 + (le16 (rxCell t 2) (rxCell t 3)).toNat →
        (∀ cmd seq p, decodeOne (rxCells t (s.rxCount.toNat + 1)) = .frame cmd seq p →
          t.rxState = .seek1 ∧ t.rxCount.toNat = s.rxCount.toNat + 1 ∧ t.rxFrameValid = true ∧
          t.result = some ⟨.ok, 5#32, []⟩) ∧
        (decodeOne (rxCells t (s.rxCount.toNat + 1)) = .mismatch →
          t.rxState = .seek1 ∧ t.rxCount = 0#17 ∧ t.rxFrameValid = false ∧
          t.result = some ⟨.ok, 6#32, []⟩))

/-- The one stop of the model (log 6): RX.BYTE in COLLECT with no cell left, which spec/10_state.md R33 (b) excludes. -/
def Obligations.RxByteStopsOutsideTheBuffer : Prop :=
  ∀ (s : State) (d : Byte), s.rxFrameValid = false → s.rxState = .collect → 65543 ≤ s.rxCount.toNat →
    exec (.rxByte d) s = .fault .rxBufIndex

/-- spec/42_synchronizer.md R171: RX.READHDR; the result is the TX.START operand of the same header (R85). -/
def Obligations.RxReadhdrReturnsHeader : Prop :=
  (∀ x : Word, decode (opWord 0x23#8 x) = if x = 0#32 then .ok .rxReadhdr else .error .reservedOperandBit) ∧
  (∀ s : State, s.rxFrameValid = false →
    exec .rxReadhdr s = .next { s with result := some ⟨.paramError, 0#32, []⟩ }) ∧
  (∀ s : State, s.rxFrameValid = true →
    ∃ data : Word, exec .rxReadhdr s = .next { s with result := some ⟨.ok, data, []⟩ } ∧
      data.extractLsb' 0 8 = rxCell s 0 ∧ data.extractLsb' 8 8 = rxCell s 1 ∧
      data.extractLsb' 16 8 = rxCell s 2 ∧ data.extractLsb' 24 8 = rxCell s 3 ∧
      data.extractLsb' 16 16 = le16 (rxCell s 2) (rxCell s 3) ∧
      data = (Instr.txStart (rxCell s 0) (rxCell s 1) (le16 (rxCell s 2) (rxCell s 3))).operand)

/-- spec/42_synchronizer.md R172: RX.PEEK. -/
def Obligations.RxPeekReturnsPayloadByte : Prop :=
  (∀ x : Word, decode (opWord 0x24#8 x) =
    if x.extractLsb' 16 16 = 0#16 then .ok (.rxPeek (x.extractLsb' 0 16)) else .error .reservedOperandBit) ∧
  (∀ (s : State) (idx : Len), s.rxFrameValid = false →
    exec (.rxPeek idx) s = .next { s with result := some ⟨.paramError, 0#32, []⟩ }) ∧
  (∀ (s : State) (idx : Len), s.rxFrameValid = true →
    (le16 (rxCell s 2) (rxCell s 3)).toNat ≤ idx.toNat →
    exec (.rxPeek idx) s = .next { s with result := some ⟨.paramError, 0#32, []⟩ }) ∧
  (∀ (s : State) (idx : Len), s.rxFrameValid = true →
    idx.toNat < (le16 (rxCell s 2) (rxCell s 3)).toNat →
    exec (.rxPeek idx) s =
      .next { s with result := some ⟨.ok, (rxCell s (4 + idx.toNat)).setWidth 32, []⟩ })

/-- spec/42_synchronizer.md R173: RX.RELEASE; with no frame held it changes nothing, a candidate in COLLECT included. -/
def Obligations.RxReleaseFreesHeldFrame : Prop :=
  (∀ x : Word, decode (opWord 0x22#8 x) = if x = 0#32 then .ok .rxRelease else .error .reservedOperandBit) ∧
  (∀ s : State, s.rxFrameValid = true →
    exec .rxRelease s = .next { s with
      rxFrameValid := false, rxCount := 0#17, result := some ⟨.ok, 0#32, []⟩ }) ∧
  (∀ s : State, s.rxFrameValid = false →
    exec .rxRelease s = .next { s with result := some ⟨.ok, 0#32, []⟩ })

/-- spec/42_synchronizer.md R174: RX.RESET; the buffer's cells keep their values, the other units are not touched. -/
def Obligations.RxResetReturnsToSeek1 : Prop :=
  (∀ x : Word, decode (opWord 0x20#8 x) = if x = 0#32 then .ok .rxReset else .error .reservedOperandBit) ∧
  (∀ s : State, exec .rxReset s = .next { s with
    rxState := .seek1, rxCount := 0#17, rxFrameValid := false, result := some ⟨.ok, 0#32, []⟩ })

/-- spec/42_synchronizer.md R175: RX.STATUS, bits 1:0 `rx_state`, bit 2 `rx_frame_valid`, bits 14:3 zero, bits 31:15
`rx_count`. -/
def Obligations.RxStatusShowsStateAndCount : Prop :=
  (∀ x : Word, decode (opWord 0x25#8 x) = if x = 0#32 then .ok .rxStatus else .error .reservedOperandBit) ∧
  (∀ s : State, ∃ data : Word, exec .rxStatus s = .next { s with result := some ⟨.ok, data, []⟩ } ∧
    data.extractLsb' 0 2 = (match s.rxState with | .seek1 => 0#2 | .seek2 => 1#2 | .collect => 2#2) ∧
    data.getLsbD 2 = s.rxFrameValid ∧ data.extractLsb' 3 12 = 0#12 ∧ data.extractLsb' 15 17 = s.rxCount)

/-- spec/42_synchronizer.md R176: what each event code says, and that code 7 is never returned. -/
def Obligations.RxEventCodesSayTheTransition : Prop :=
  ∀ (s t : State) (d : Byte) (r : OpResult),
    exec (.rxByte d) s = .next t → t.result = some r → r.status = .ok →
    r.data.toNat ≤ 6 ∧
    (r.data = 0#32 ↔ s.rxState = .seek1 ∧ d ≠ 0x55#8) ∧
    (r.data = 1#32 ↔ s.rxState = .seek1 ∧ t.rxState = .seek2) ∧
    (r.data = 2#32 ↔ s.rxState = .seek2 ∧ t.rxState = .collect) ∧
    (r.data = 3#32 ↔ s.rxState = .seek2 ∧ t.rxState = .seek1) ∧
    (r.data = 4#32 ↔ s.rxState = .collect ∧ t.rxState = .collect) ∧
    (r.data = 5#32 ↔ t.rxFrameValid = true) ∧
    (r.data = 6#32 ↔ s.rxState = .collect ∧ t.rxState = .seek1 ∧ t.rxFrameValid = false)

/-- The inference that spec/42_synchronizer.md R177 and R178 mark as the spec's own: from SEEK1 with no frame held, the bytes of
`encode(cmd, seq, P)`, whatever they are, give EV_MARK1, EV_MARK2, EV_COLLECT `7 + len(P)` times and EV_FRAME_OK;
RX.READHDR then returns the TX.START operand of the same header, and the host reads the triple back. -/
def Obligations.EncodedFrameIsReceived : Prop :=
  ∀ (s : State) (cmd seq : Byte) (p f : List Byte),
    s.rxFrameValid = false → s.rxState = .seek1 → encodeFrame cmd seq p = .ok f →
    ∃ t rs u v, issueAll (rxFeedOps f) s = some (t, rs) ∧
      rs = [⟨.ok, 1#32, []⟩, ⟨.ok, 2#32, []⟩] ++ List.replicate (7 + p.length) ⟨.ok, 4#32, []⟩ ++
        [⟨.ok, 5#32, []⟩] ∧
      t.rxFrameValid = true ∧
      issue .rxReadhdr t = some (u, ⟨.ok, operandH cmd seq (BitVec.ofNat 16 p.length), []⟩) ∧
      readFrame t = some (v, ⟨cmd, seq, p⟩)

/-- The inference that spec/42_synchronizer.md R179 marks as the spec's own: two valid frames among clean garbage are
received, both and in order, by a host that reads and releases each held frame (log 14). Clean is what R179 says in
both its forms, and a byte list without 0x55 is clean. -/
def Obligations.FramesAmongCleanGarbageAreReceived : Prop :=
  (∀ (s : State) (g1 g2 g3 : List Byte) (c1 q1 c2 q2 : Byte) (p1 p2 f1 f2 : List Byte),
    s.rxFrameValid = false → s.rxState = .seek1 →
    isClean g1 = true → isClean g2 = true → isClean g3 = true →
    encodeFrame c1 q1 p1 = .ok f1 → encodeFrame c2 q2 p2 = .ok f2 →
    ∃ t, scan (g1 ++ f1 ++ g2 ++ f2 ++ g3) s = some (t, [⟨c1, q1, p1⟩, ⟨c2, q2, p2⟩]) ∧
      t.rxState = .seek1 ∧ t.rxFrameValid = false) ∧
  (∀ (s : State) (g : List Byte), s.rxFrameValid = false → s.rxState = .seek1 →
    (isClean g = true ↔ ∃ t rs, issueAll (rxFeedOps g) s = some (t, rs) ∧
      (∀ r ∈ rs, r.data ≠ eventData .mark2) ∧ t.rxState = .seek1)) ∧
  (∀ g : List Byte, 0x55#8 ∉ g → isClean g = true)

/-- The inference that spec/42_synchronizer.md R180 (a) marks as the spec's own: a 0x55 taken as EV_MARK1 directly before a frame loses it: the frame's 0x55 is
dropped, its 0xAA is noise, and a rest without another 0x55 is noise to its end. -/
def Obligations.StrayMarkerByteLosesTheFrame : Prop :=
  ∀ (s : State) (cmd seq : Byte) (p f : List Byte),
    s.rxFrameValid = false → s.rxState = .seek1 → encodeFrame cmd seq p = .ok f → 0x55#8 ∉ f.drop 2 →
    ∃ t, issueAll (rxFeedOps (0x55#8 :: f)) s =
        some (t, [⟨.ok, 1#32, []⟩, ⟨.ok, 3#32, []⟩] ++ List.replicate (9 + p.length) ⟨.ok, 0#32, []⟩) ∧
      t.rxState = .seek1 ∧ t.rxFrameValid = false

/-- While a frame is held, RX.BYTE however often issued is BUSY and changes nothing: the inference that
spec/70_reset_and_hazards.md R245 and R247 mark as the spec's own, "nothing inside CFE clears `rx_frame_valid`". -/
def Obligations.HeldFrameRefusesEveryByte : Prop :=
  ∀ (s : State) (bytes : List Byte), s.rxFrameValid = true →
    ∃ t, issueAll (rxFeedOps bytes) s = some (t, List.replicate bytes.length ⟨.busy, 0#32, []⟩) ∧
      SameUnits s t ∧ t.txOut = s.txOut

/-- The inference that spec/70_reset_and_hazards.md R248 marks as the spec's own: a candidate that has not yet got `8 + length` bytes takes whatever comes and
stays in COLLECT. -/
def Obligations.ShortCandidateStaysInCollect : Prop :=
  ∀ (s : State) (bytes : List Byte), s.rxFrameValid = false → s.rxState = .collect → 4 ≤ s.rxCount.toNat →
    s.rxCount.toNat + bytes.length < rxExpect s →
    ∃ t, issueAll (rxFeedOps bytes) s = some (t, List.replicate bytes.length ⟨.ok, 4#32, []⟩) ∧
      t.rxState = .collect ∧ t.rxFrameValid = false ∧ t.rxCount.toNat = s.rxCount.toNat + bytes.length ∧
      rxExpect t = rxExpect s

/-! ## Rules about the whole machine -/

/-- spec/60_exceptions.md R210: every operation returns one of four statuses, with these codes, and whenever the status
is not OK, data is 0, out is empty and no state of any unit changes. -/
def Obligations.NonOkResultChangesNothing : Prop :=
  (∀ (s t : State) (r : OpResult), step s = .next t → t.result = some r →
    r.status ≠ .ok → r.data = 0#32 ∧ r.out = [] ∧ t = { s with input := s.input.tail, result := some r }) ∧
  (∀ (i : Instr) (s t : State), exec i s = .next t → ∃ r, t.result = some r) ∧
  statusCode .ok = 0#2 ∧ statusCode .busy = 1#2 ∧ statusCode .paramError = 2#2 ∧ statusCode .illegal = 3#2

/-- spec/60_exceptions.md R212: BUSY has exactly one cause. -/
def Obligations.BusyHasOneCause : Prop :=
  ∀ (i : Instr) (s t : State) (r : OpResult), exec i s = .next t → t.result = some r →
    (r.status = .busy ↔ (∃ d, i = .rxByte d) ∧ s.rxFrameValid = true)

/-- spec/60_exceptions.md R213: the complete list of causes of PARAM_ERROR. -/
def Obligations.ParamErrorHasTheListedCauses : Prop :=
  (∀ (i : Instr) (s t : State) (r : OpResult), exec i s = .next t → t.result = some r →
    (r.status = .paramError ↔
      (∃ cmd seq len, i = .txStart cmd seq len ∧ s.txBusy = true) ∨
      (∃ d, i = .txByte d ∧ s.txBusy = false) ∨
      (i = .rxReadhdr ∧ s.rxFrameValid = false) ∨
      (∃ idx, i = .rxPeek idx ∧ s.rxFrameValid = false) ∨
      (∃ idx, i = .rxPeek idx ∧ s.rxFrameValid = true ∧ (rxLength s).toNat ≤ idx.toNat))) ∧
  (∀ (cmd seq : Byte) (p : List Byte), encodeFrame cmd seq p = .error .paramError ↔ 65535 < p.length)

/-- spec/60_exceptions.md R211: a step returns ILLEGAL exactly for a word with an `op` outside the map or with a 1 in a
reserved operand bit, whatever the state, so it is checked before BUSY and PARAM_ERROR (R215); the result records
nothing else. -/
def Obligations.IllegalIsCheckedFirst : Prop :=
  ∀ (s t : State) (w : OpWord) (rest : List HostInput) (r : OpResult),
    s.input = .word w :: rest → step s = .next t → t.result = some r →
    (r.status = .illegal ↔
      opField w ∉ formatNOps ++ formatBOps ++ formatIOps ++ formatHOps ∨
      (opField w ∈ formatNOps ∧ operandField w ≠ 0#32) ∨
      (opField w ∈ formatBOps ∧ (operandField w).extractLsb' 8 24 ≠ 0#24) ∨
      (opField w ∈ formatIOps ∧ (operandField w).extractLsb' 16 16 ≠ 0#16)) ∧
    (r.status = .illegal → r = ⟨.illegal, 0#32, []⟩)

/-- spec/20_memory.md R61: each operation touches its own unit only; and the inference R61 marks as the spec's own,
that operations of different units commute in their effect on state and in each one's result. -/
def Obligations.UnitsAreDisjointAndCommute : Prop :=
  (∀ (i : Instr) (s t : State), exec i s = .next t →
    (i.cfeUnit ≠ .crc → SameCrcUnit s t) ∧
    (i.cfeUnit ≠ .tx → SameTxUnit s t ∧ t.txOut = s.txOut) ∧
    (i.cfeUnit ≠ .rx → SameRxUnit s t)) ∧
  (∀ (i j : Instr) (s a a' : State), i.cfeUnit ≠ j.cfeUnit → exec i s = .next a → exec j s = .next a' →
    ∃ b b', exec j a = .next b ∧ exec i a' = .next b' ∧
      SameUnits b b' ∧ a.result = b'.result ∧ a'.result = b.result ∧ b.txOut = b'.txOut)

/-- spec/10_state.md R29, spec/20_memory.md R57: the frame of memory. The only operation that stores is RX.BYTE in
COLLECT, to the cell `rx_count`; for every operation every other byte of the buffer reads as before, and so does every
byte for a form that stores nothing. What the host has presented and the draw of the unwritten cells stay. -/
def Obligations.OnlyTheAppendedCellChanges : Prop :=
  ∀ (i : Instr) (s t : State), exec i s = .next t →
    (∀ a, rxStoreIndex i s = some a → ∀ b, b ≠ a → rxCell t b = rxCell s b) ∧
    (rxStoreIndex i s = none → ∀ b, rxCell t b = rxCell s b) ∧
    (∀ d a, i = .rxByte d → rxStoreIndex i s = some a → rxCell t a = d) ∧
    t.input = s.input ∧ t.rxBufEpoch = s.rxBufEpoch

/-- spec/20_memory.md R56: the reads have no side effects and are idempotent, and, the inference R56 marks as the spec's
own, issued twice in a row they return the same result twice. -/
def Obligations.ReadsAreIdempotent : Prop :=
  ∀ (i : Instr) (s : State), isReadOp i = true →
    ∃ t r, exec i s = .next t ∧ t = { s with result := some r } ∧ exec i t = .next t

/-- spec/20_memory.md R62, the queue being the model's field (log 5): a step appends exactly the `out` bytes of its
result to the output queue, which otherwise keeps its bytes and their order. A result has at most 10 `out` bytes, an
inference that spec/30_encoding.md R89 marks as the spec's own. -/
def Obligations.OutputQueueKeepsOrder : Prop :=
  ∀ s t : State, step s = .next t →
    t.txOut = s.txOut ++ (match t.result with | some r => r.out | none => []) ∧
    ∀ r, t.result = some r → r.out.length ≤ 10

/-- spec/10_state.md R35: the level `rx_frame_ready` equals `rx_frame_valid` in every state. spec/60_exceptions.md R216:
it falls only by RX.RELEASE, RX.RESET or reset, and rises only by an RX.BYTE in COLLECT. -/
def Obligations.FrameReadyChangesOnlyAsListed : Prop :=
  (∀ s : State, rxFrameReady s = s.rxFrameValid) ∧
  ∀ s t : State, step s = .next t →
    (rxFrameReady s = true → rxFrameReady t = false →
      ∃ rest, s.input = .reset :: rest ∨ s.input = .word (encode .rxRelease) :: rest ∨
        s.input = .word (encode .rxReset) :: rest) ∧
    (rxFrameReady s = false → rxFrameReady t = true →
      s.rxState = .collect ∧ ∃ d rest, s.input = .word (encode (.rxByte d)) :: rest)

/-! ## Invariants and what cannot be seen -/

/-- Reset establishes the invariants of spec/10_state.md R27 and R33, inferences the spec marks as its own, and the
form of the buffer (log 1). -/
def Obligations.InvariantHoldsAtReset : Prop := Inv State.reset

/-- Every step keeps the invariants of spec/10_state.md R27 and R33, inferences the spec marks as its own ("Reset
establishes it, and every TX rule of 41_frame_codec.md preserves it"), and the form of the buffer (log 1), whatever the
host presents. -/
def Obligations.EveryStepKeepsTheInvariant : Prop :=
  ∀ s t : State, Inv s → step s = .next t → Inv t

/-- spec/43_block.md R202, R203: no operation blocks and every operation completes in its step, whatever the host
presents. The fault of log 6 is not reached. -/
def Obligations.EveryStepCompletes : Prop :=
  ∀ s : State, Inv s → ∃ t, step s = .next t

/-- The memory keeps its canonical form, the model's choice (log 1), in every step, from any state that has it. -/
def Obligations.BufferStaysCanonical : Prop :=
  ∀ s t : State, Memory.wf s.rxBuf = true → step s = .next t → Memory.wf t.rxBuf = true

/-- The inference that spec/10_state.md R29 marks as the spec's own, with R26: the cells at or above `rx_count`, the draw behind them, and `tx_crc` while the TX unit is
idle are unobservable: two states that differ only there take steps that differ only there, with the same results. -/
def Obligations.UnspecifiedStateIsUnobservable : Prop :=
  ∀ s s' t : State, Inv s → Inv s' → SameToHost s s' → step s = .next t →
    ∃ t', step s' = .next t' ∧ SameToHost t t'

/-- spec/30_encoding.md R92: the Session's check of an ACK, a host function outside CFE. -/
def Obligations.AckCheckIsTheFiveConditions : Prop :=
  ∀ (f : Frame) (c s : Byte),
    ackAccepted f c s = true ↔
      f.cmd = 0x06#8 ∧ 3 ≤ f.payload.length ∧ f.payload[1]? = some c ∧ f.payload[2]? = some s ∧
      f.payload[0]? = some 0x00#8
end

