-- ==== Sys2Proof/Laws/PerInstr.lean ====
section
/-! SUPPORT. Per-instruction statements about the syntax: the encoded word carries the operation code of
spec/30_encoding.md R82 in 39:32, and a 0 in every operand bit that its format reserves (R83). -/

namespace Sys2Proof.Laws.EncodedFields

/-- What is said of each operation. -/
def Statement (i : Instr) : Prop :=
  opField (encode i) = i.opcode ∧ operandField (encode i) = i.operand ∧ i.operand &&& i.format.reservedMask = 0#32

theorem opField_opWord (op : Byte) (operand : Word) : opField (opWord op operand) = op :=
  BitVec.extractLsb'_append_eq_left

theorem operandField_opWord (op : Byte) (operand : Word) : operandField (opWord op operand) = operand :=
  BitVec.extractLsb'_append_eq_right

theorem operandB_reserved (d : Byte) : operandB d &&& Format.b.reservedMask = 0#32 := by
  apply BitVec.eq_of_getLsbD_eq
  intro k hk
  interval_cases k <;> simp [operandB, Format.reservedMask]

theorem operandI_reserved (idx : Len) : operandI idx &&& Format.i.reservedMask = 0#32 := by
  apply BitVec.eq_of_getLsbD_eq
  intro k hk
  interval_cases k <;> simp [operandI, Format.reservedMask]

theorem operandH_reserved (x : Word) : x &&& Format.h.reservedMask = 0#32 := by
  simp [Format.reservedMask]

theorem of_reserved {i : Instr} (h : i.operand &&& i.format.reservedMask = 0#32) : Statement i :=
  ⟨opField_opWord _ _, operandField_opWord _ _, h⟩

theorem nop : Statement .nop := of_reserved (by decide)
theorem crcInit : Statement .crcInit := of_reserved (by decide)
theorem crcByte (d : Byte) : Statement (.crcByte d) := of_reserved (operandB_reserved d)
theorem crcRead : Statement .crcRead := of_reserved (by decide)
theorem rxReset : Statement .rxReset := of_reserved (by decide)
theorem rxByte (d : Byte) : Statement (.rxByte d) := of_reserved (operandB_reserved d)
theorem rxRelease : Statement .rxRelease := of_reserved (by decide)
theorem rxReadhdr : Statement .rxReadhdr := of_reserved (by decide)
theorem rxPeek (idx : Len) : Statement (.rxPeek idx) := of_reserved (operandI_reserved idx)
theorem rxStatus : Statement .rxStatus := of_reserved (by decide)
theorem txStart (cmd seq : Byte) (len : Len) : Statement (.txStart cmd seq len) := of_reserved (operandH_reserved _)
theorem txByte (d : Byte) : Statement (.txByte d) := of_reserved (operandB_reserved d)
theorem txAbort : Statement .txAbort := of_reserved (by decide)
theorem txStatus : Statement .txStatus := of_reserved (by decide)

end Sys2Proof.Laws.EncodedFields
end

