-- ==== Sys2Proof/Laws/Encoding.lean ====
section
/-! SUPPORT. The bits of the packed values: operation words, operands, `LE16`, `LE32`; and ill-formed source lines. -/

namespace Sys2Proof

theorem opWord_getLsbD (op : Byte) (x : Word) (k : Nat) :
    (opWord op x).getLsbD k = if k < 32 then x.getLsbD k else op.getLsbD (k - 32) :=
  BitVec.getLsbD_append

theorem operandH_getLsbD (c q : Byte) (l : Len) (k : Nat) :
    (operandH c q l).getLsbD k =
      if k < 8 then c.getLsbD k else if k < 16 then q.getLsbD (k - 8) else l.getLsbD (k - 16) := by
  have h1 : (operandH c q l).getLsbD k = if k < 8 then c.getLsbD k else (l ++ q).getLsbD (k - 8) :=
    BitVec.getLsbD_append
  rw [h1, BitVec.getLsbD_append]
  by_cases h : k < 8
  · simp [h]
  · by_cases h' : k < 16
    · rw [if_neg h, if_neg h, if_pos h', if_pos (by omega)]
    · rw [if_neg h, if_neg h, if_neg h', if_neg (by omega), show k - 8 - 8 = k - 16 by omega]

/-- A word is its two fields. -/
theorem opWord_fields (w : OpWord) : opWord (opField w) (operandField w) = w := by
  apply BitVec.eq_of_getLsbD_eq
  intro k hk
  simp only [opWord_getLsbD, opField, operandField, BitVec.getLsbD_extractLsb']
  by_cases h : k < 32
  · simp [h]
  · rw [if_neg h, show 32 + (k - 32) = k by omega]
    simp [show k - 32 < 8 by omega]

/-- A line that is not well-formed is an assembly error (R86). -/
theorem AsmLine.assemble_eq_none {l : AsmLine} (h : l.wellFormed = false) : l.assemble = none := by
  unfold AsmLine.assemble
  rw [if_neg (by rw [h]; exact Bool.false_ne_true)]

end Sys2Proof

namespace Sys2Proof.Machine

theorem le16_getLsbD (a b : Byte) (k : Nat) (hk : k < 16) :
    (le16 a b).getLsbD k = if k < 8 then a.getLsbD k else b.getLsbD (k - 8) := by
  simp only [le16, BitVec.getLsbD_or, BitVec.getLsbD_shiftLeft, BitVec.getLsbD_setWidth]
  by_cases h1 : k < 8
  · simp [h1, hk]
  · have := BitVec.getLsbD_of_ge a k (by omega)
    simp [h1, hk, this, show k - 8 < 16 by omega]

theorem le32_getLsbD (a b c d : Byte) (k : Nat) (hk : k < 32) :
    (le32 a b c d).getLsbD k =
      if k < 8 then a.getLsbD k else if k < 16 then b.getLsbD (k - 8)
      else if k < 24 then c.getLsbD (k - 16) else d.getLsbD (k - 24) := by
  simp only [le32, BitVec.getLsbD_or, BitVec.getLsbD_shiftLeft, BitVec.getLsbD_setWidth]
  by_cases h1 : k < 8
  · simp [h1, hk, show k < 16 by omega, show k < 24 by omega]
  · have := BitVec.getLsbD_of_ge a k (by omega)
    by_cases h2 : k < 16
    · simp [h1, h2, hk, this, show k < 24 by omega, show k - 8 < 32 by omega]
    · have h3 := BitVec.getLsbD_of_ge b (k - 8) (by omega)
      by_cases h4 : k < 24
      · simp [h1, h2, h4, hk, this, h3, show k - 16 < 32 by omega]
      · have h5 := BitVec.getLsbD_of_ge c (k - 16) (by omega)
        simp [h1, h2, h4, hk, this, h3, h5, show k - 24 < 32 by omega]

/-- The header word (R171) has the header bytes in order. -/
theorem le32_bytes (a b c d : Byte) :
    (le32 a b c d).extractLsb' 0 8 = a ∧ (le32 a b c d).extractLsb' 8 8 = b ∧
      (le32 a b c d).extractLsb' 16 8 = c ∧ (le32 a b c d).extractLsb' 24 8 = d := by
  refine ⟨?_, ?_, ?_, ?_⟩ <;>
    (apply BitVec.eq_of_getLsbD_eq; intro k hk
     simp only [BitVec.getLsbD_extractLsb', hk, decide_true, Bool.true_and]
     rw [le32_getLsbD _ _ _ _ _ (by omega)])
  · simp [hk]
  · simp [show ¬ 8 + k < 8 by omega, show 8 + k < 16 by omega]
  · simp [show ¬ 16 + k < 8 by omega, show ¬ 16 + k < 16 by omega, show 16 + k < 24 by omega]
  · simp [show ¬ 24 + k < 8 by omega, show ¬ 24 + k < 16 by omega, show ¬ 24 + k < 24 by omega]

/-- `LE32` undoes `bytesLE32` (R12, R53). -/
theorem le32_bytesLE32 (w : Word) :
    le32 (w.extractLsb' 0 8) (w.extractLsb' 8 8) (w.extractLsb' 16 8) (w.extractLsb' 24 8) = w := by
  apply BitVec.eq_of_getLsbD_eq
  intro k hk
  rw [le32_getLsbD _ _ _ _ _ hk]
  simp only [BitVec.getLsbD_extractLsb']
  by_cases h1 : k < 8
  · simp [h1]
  · by_cases h2 : k < 16
    · simp [h1, h2, show k - 8 < 8 by omega, show 8 + (k - 8) = k by omega]
    · by_cases h3 : k < 24
      · simp [h1, h2, h3, show k - 16 < 8 by omega, show 16 + (k - 16) = k by omega]
      · simp [h1, h2, h3, show k - 24 < 8 by omega, show 24 + (k - 24) = k by omega]

/-- `LE16` of the bytes of a length is the length (R12, R71). -/
theorem le16_len (len : Len) : le16 (lenLow len) (lenHigh len) = len := by
  apply BitVec.eq_of_getLsbD_eq
  intro k hk
  rw [le16_getLsbD _ _ _ hk]
  simp only [lenLow, lenHigh, BitVec.getLsbD_extractLsb']
  by_cases h1 : k < 8
  · simp [h1]
  · simp [h1, show k - 8 < 8 by omega, show 8 + (k - 8) = k by omega]

end Sys2Proof.Machine
end

