-- ==== Sys2Proof/Laws/State.lean ====
section
/-! SUPPORT. One lemma per field for each shared update of the state. -/

namespace Sys2Proof.Machine

variable (s : State) (r : OpResult) (d : Byte) (xs : List HostInput)

@[simp] theorem withResult_crcAcc : (withResult r s).crcAcc = s.crcAcc := rfl
@[simp] theorem withResult_txBusy : (withResult r s).txBusy = s.txBusy := rfl
@[simp] theorem withResult_txRemaining : (withResult r s).txRemaining = s.txRemaining := rfl
@[simp] theorem withResult_txCrc : (withResult r s).txCrc = s.txCrc := rfl
@[simp] theorem withResult_rxState : (withResult r s).rxState = s.rxState := rfl
@[simp] theorem withResult_rxCount : (withResult r s).rxCount = s.rxCount := rfl
@[simp] theorem withResult_rxFrameValid : (withResult r s).rxFrameValid = s.rxFrameValid := rfl
@[simp] theorem withResult_rxBuf : (withResult r s).rxBuf = s.rxBuf := rfl
@[simp] theorem withResult_rxBufEpoch : (withResult r s).rxBufEpoch = s.rxBufEpoch := rfl
@[simp] theorem withResult_input : (withResult r s).input = s.input := rfl
@[simp] theorem withResult_result : (withResult r s).result = some r := rfl
@[simp] theorem withResult_txOut : (withResult r s).txOut = s.txOut ++ r.out := rfl

@[simp] theorem withInput_crcAcc : (withInput xs s).crcAcc = s.crcAcc := rfl
@[simp] theorem withInput_txBusy : (withInput xs s).txBusy = s.txBusy := rfl
@[simp] theorem withInput_txRemaining : (withInput xs s).txRemaining = s.txRemaining := rfl
@[simp] theorem withInput_txCrc : (withInput xs s).txCrc = s.txCrc := rfl
@[simp] theorem withInput_rxState : (withInput xs s).rxState = s.rxState := rfl
@[simp] theorem withInput_rxCount : (withInput xs s).rxCount = s.rxCount := rfl
@[simp] theorem withInput_rxFrameValid : (withInput xs s).rxFrameValid = s.rxFrameValid := rfl
@[simp] theorem withInput_rxBuf : (withInput xs s).rxBuf = s.rxBuf := rfl
@[simp] theorem withInput_rxBufEpoch : (withInput xs s).rxBufEpoch = s.rxBufEpoch := rfl
@[simp] theorem withInput_input : (withInput xs s).input = xs := rfl
@[simp] theorem withInput_result : (withInput xs s).result = s.result := rfl
@[simp] theorem withInput_txOut : (withInput xs s).txOut = s.txOut := rfl

@[simp] theorem rxAppend_crcAcc : (rxAppend d s).crcAcc = s.crcAcc := rfl
@[simp] theorem rxAppend_txBusy : (rxAppend d s).txBusy = s.txBusy := rfl
@[simp] theorem rxAppend_txRemaining : (rxAppend d s).txRemaining = s.txRemaining := rfl
@[simp] theorem rxAppend_txCrc : (rxAppend d s).txCrc = s.txCrc := rfl
@[simp] theorem rxAppend_rxState : (rxAppend d s).rxState = s.rxState := rfl
@[simp] theorem rxAppend_rxCount : (rxAppend d s).rxCount = s.rxCount + 1#17 := rfl
@[simp] theorem rxAppend_rxFrameValid : (rxAppend d s).rxFrameValid = s.rxFrameValid := rfl
@[simp] theorem rxAppend_rxBuf : (rxAppend d s).rxBuf = Memory.write s.rxBuf s.rxCount.toNat d := rfl
@[simp] theorem rxAppend_rxBufEpoch : (rxAppend d s).rxBufEpoch = s.rxBufEpoch := rfl
@[simp] theorem rxAppend_input : (rxAppend d s).input = s.input := rfl
@[simp] theorem rxAppend_result : (rxAppend d s).result = s.result := rfl
@[simp] theorem rxAppend_txOut : (rxAppend d s).txOut = s.txOut := rfl

/-- A cell depends on the buffer and its draw alone. -/
theorem rxCell_congr {s t : State} (hb : s.rxBuf = t.rxBuf) (he : s.rxBufEpoch = t.rxBufEpoch) (i : Nat) :
    rxCell s i = rxCell t i := by
  simp [rxCell, hb, he]

@[simp] theorem rxCell_withResult (i : Nat) : rxCell (withResult r s) i = rxCell s i := rfl
@[simp] theorem rxCell_withInput (i : Nat) : rxCell (withInput xs s) i = rxCell s i := rfl

end Sys2Proof.Machine
end

