-- ==== Sys2Proof/Laws/Ops.lean ====
section
/-! SUPPORT. One lemma per shared operation that says everything it can do. -/

namespace Sys2Proof.Machine

/-- `return` always answers one next state. -/
@[simp] theorem ret_next_iff (status : Status) (data : Word) (out : List Byte) (s t : State) :
    ret status data out s = .next t ↔ t = withResult ⟨status, data, out⟩ s := by
  simp only [ret, Host.Outcome.next.injEq]
  exact eq_comm

/-- `raise` changes nothing but the result. -/
theorem raise_eq (status : Status) (s : State) :
    raise status s = .next { s with result := some ⟨status, 0#32, []⟩ } := by
  simp [raise, ret, withResult]

/-- Everything the completion check can answer (R164 to R166). -/
theorem rxCheck_cases (s : State) :
    (rxComplete s = false ∧ rxCheck s = retEvent .collect s) ∨
    (rxComplete s = true ∧ (∃ cmd seq p, decodeOne (rxCells s s.rxCount.toNat) = .frame cmd seq p) ∧
      rxCheck s = retEvent .frameOk { s with rxState := .seek1, rxFrameValid := true }) ∨
    (rxComplete s = true ∧ decodeOne (rxCells s s.rxCount.toNat) = .mismatch ∧
      rxCheck s = retEvent .frameBad { s with rxState := .seek1, rxCount := 0#17 }) := by
  unfold rxCheck
  split
  · rename_i hc
    split
    · rename_i cmd seq p hd
      exact .inr (.inl ⟨hc, ⟨cmd, seq, p, hd⟩, rfl⟩)
    · rename_i hd
      exact .inr (.inr ⟨hc, hd, rfl⟩)
  · rename_i hc
    exact .inl ⟨by simpa using hc, rfl⟩

/-- The completion check never stops. -/
theorem rxCheck_next (s : State) : ∃ t, rxCheck s = .next t := by
  rcases rxCheck_cases s with ⟨_, h⟩ | ⟨_, _, h⟩ | ⟨_, _, h⟩ <;> exact ⟨_, h⟩

/-- Everything `RX.BYTE` can answer as a next state, one case for each transition of R161 to R166 and one for BUSY. -/
theorem execRxByte_cases {s t : State} {d : Byte} (h : execRxByte d s = .next t) :
  (s.rxFrameValid = true ∧ t = { s with result := some ⟨.busy, 0#32, []⟩ }) ∨
  (s.rxFrameValid = false ∧ s.rxState = .seek1 ∧ d = 0x55#8 ∧
    t = { s with rxState := .seek2, result := some ⟨.ok, 1#32, []⟩ }) ∨
  (s.rxFrameValid = false ∧ s.rxState = .seek1 ∧ d ≠ 0x55#8 ∧ t = { s with result := some ⟨.ok, 0#32, []⟩ }) ∨
  (s.rxFrameValid = false ∧ s.rxState = .seek2 ∧ d = 0xAA#8 ∧ t = { s with rxState := .collect, rxCount := 0#17, result := some ⟨.ok, 2#32, []⟩ }) ∨
  (s.rxFrameValid = false ∧ s.rxState = .seek2 ∧ d ≠ 0xAA#8 ∧ t = { s with rxState := .seek1, result := some ⟨.ok, 3#32, []⟩ }) ∨
  (s.rxFrameValid = false ∧ s.rxState = .collect ∧ s.rxCount.toNat < 65543 ∧ (
    (rxComplete (rxAppend d s) = false ∧ t = { rxAppend d s with result := some ⟨.ok, 4#32, []⟩ }) ∨
    (rxComplete (rxAppend d s) = true ∧ (∃ cmd seq p, decodeOne (rxCells (rxAppend d s) (rxAppend d s).rxCount.toNat) = .frame cmd seq p) ∧ t = { rxAppend d s with rxState := .seek1, rxFrameValid := true, result := some ⟨.ok, 5#32, []⟩ }) ∨
    (rxComplete (rxAppend d s) = true ∧ t = { rxAppend d s with rxState := .seek1, rxCount := 0#17, result := some ⟨.ok, 6#32, []⟩ }))) := by
  simp only [execRxByte] at h
  split at h
  · rename_i hv; rw [raise_eq] at h; cases h; exact .inl ⟨hv, rfl⟩
  · rename_i hv; have hv : s.rxFrameValid = false := by simpa using hv
    right
    split at h
    · rename_i hs
      simp only [rxSeek1] at h
      split at h <;> (rename_i hd; simp [retEvent, ret, withResult, eventData] at h; subst h)
      · exact .inl ⟨hv, hs, hd, rfl⟩
      · exact .inr (.inl ⟨hv, hs, hd, rfl⟩)
    · rename_i hs
      simp only [rxSeek2] at h
      split at h <;> (rename_i hd; simp [retEvent, ret, withResult, eventData] at h; subst h)
      · exact .inr (.inr (.inl ⟨hv, hs, hd, rfl⟩))
      · exact .inr (.inr (.inr (.inl ⟨hv, hs, hd, rfl⟩)))
    · rename_i hs
      simp only [rxCollect] at h
      split at h
      · rename_i hc
        refine .inr (.inr (.inr (.inr ⟨hv, hs, hc, ?_⟩)))
        rcases rxCheck_cases (rxAppend d s) with ⟨h1, h2⟩ | ⟨h1, h3, h2⟩ | ⟨h1, h3, h2⟩ <;>
          (rw [h2] at h; simp [retEvent, ret, withResult, eventData] at h; subst h)
        · exact .inl ⟨h1, by simp⟩
        · exact .inr (.inl ⟨h1, h3, by simp⟩)
        · exact .inr (.inr ⟨h1, by simp⟩)
      · cases h

/-- The answer of `decodeOne` is the CRC comparison (R133). -/
theorem decodeOne_eq_mismatch_iff (bytes : List Byte) :
    decodeOne bytes = .mismatch ↔
      crc32 (bytes.take (4 + candidateLength bytes)) ≠
        le32 (byteAt bytes (4 + candidateLength bytes)) (byteAt bytes (5 + candidateLength bytes))
          (byteAt bytes (6 + candidateLength bytes)) (byteAt bytes (7 + candidateLength bytes)) := by
  unfold decodeOne
  dsimp only
  split <;> simp_all

/-- The register after two lists is the register of the second from that of the first (R112). -/
theorem crcRegister_append (c : Word) (a b : List Byte) :
    crcRegister c (a ++ b) = crcRegister (crcRegister c a) b := by
  simp [crcRegister]

@[simp] theorem crcRegister_nil (c : Word) : crcRegister c [] = c := rfl

@[simp] theorem crcRegister_cons (c : Word) (b : Byte) (bs : List Byte) :
    crcRegister c (b :: bs) = crcRegister (crcStep c b) bs := rfl

end Sys2Proof.Machine
end

