-- ==== Sys2Proof/Tests/Slice0.lean ====
section
/-! SUPPORT. The model's own tests. Expected values come from spec/95_test_vectors.md (the vector is named), from the
patterns of spec/30_encoding.md R88 and from the corner cases of the rules. Then, for every statement with hypotheses,
a state and operands that meet them. -/

namespace Sys2Proof.Tests

open Sys2Proof.Machine

/-! ## Words of R88 -/

theorem test_decode_nop : decode 0b0000000000000000000000000000000000000000#40 = .ok .nop := by decide
theorem test_decode_crcInit : decode 0b0001000000000000000000000000000000000000#40 = .ok .crcInit := by decide
theorem test_decode_crcByte :
    decode 0b0001000100000000000000000000000010000001#40 = .ok (.crcByte 0x81#8) := by decide
theorem test_decode_crcRead : decode 0b0001001000000000000000000000000000000000#40 = .ok .crcRead := by decide
theorem test_decode_rxReset : decode 0b0010000000000000000000000000000000000000#40 = .ok .rxReset := by decide
theorem test_decode_rxByte :
    decode 0b0010000100000000000000000000000001010101#40 = .ok (.rxByte 0x55#8) := by decide
theorem test_decode_rxRelease : decode 0b0010001000000000000000000000000000000000#40 = .ok .rxRelease := by decide
theorem test_decode_rxReadhdr : decode 0b0010001100000000000000000000000000000000#40 = .ok .rxReadhdr := by decide
theorem test_decode_rxPeek :
    decode 0b0010010000000000000000001000000000000001#40 = .ok (.rxPeek 0x8001#16) := by decide
theorem test_decode_rxStatus : decode 0b0010010100000000000000000000000000000000#40 = .ok .rxStatus := by decide
theorem test_decode_txStart :
    decode 0b0011000010000000000000010000001000000011#40 = .ok (.txStart 0x03#8 0x02#8 0x8001#16) := by decide
theorem test_decode_txByte :
    decode 0b0011000100000000000000000000000010101010#40 = .ok (.txByte 0xAA#8) := by decide
theorem test_decode_txAbort : decode 0b0011001000000000000000000000000000000000#40 = .ok .txAbort := by decide
theorem test_decode_txStatus : decode 0b0011001100000000000000000000000000000000#40 = .ok .txStatus := by decide

/-- X-1: reserved bits. -/
theorem test_decode_reserved :
    decode 0x0000000001#40 = .error .reservedOperandBit ∧ decode 0x1080000000#40 = .error .reservedOperandBit ∧
    decode 0x1100000100#40 = .error .reservedOperandBit ∧ decode 0x2400010000#40 = .error .reservedOperandBit ∧
    decode 0x3300008000#40 = .error .reservedOperandBit := by decide

/-- X-1: unassigned operation codes. -/
theorem test_decode_unassigned :
    decode 0x0100000000#40 = .error .unassignedOp ∧ decode 0x1300000000#40 = .error .unassignedOp ∧
    decode 0x2600000000#40 = .error .unassignedOp ∧ decode 0x3400000000#40 = .error .unassignedOp ∧
    decode 0xFF00000000#40 = .error .unassignedOp := by decide

/-- TX-1 step 2, R86: the word of `TX.START 0x06, 0x01, 3`, and its written forms. -/
theorem test_encode_txStart : encode (.txStart 0x06#8 0x01#8 3#16) = 0x3000030106#40 := by decide
theorem test_hexWordForm : hexWordForm 0x1100000031#40 = "0x1100000031" := by decide
theorem test_decodeTableWord : decodeTableWord 40 0x240000FFFF = some (.rxPeek 0xFFFF#16) := by decide

/-! ## Well-formedness: an ill-formed line for each check (R86, R87) -/

theorem test_wf_crcByte : (AsmLine.crcByte 256).wellFormed = false ∧ (AsmLine.crcByte 255).wellFormed = true := by decide
theorem test_wf_rxByte : (AsmLine.rxByte 256).wellFormed = false := by decide
theorem test_wf_txByte : (AsmLine.txByte 256).wellFormed = false := by decide
theorem test_wf_rxPeek : (AsmLine.rxPeek 65536).wellFormed = false ∧ (AsmLine.rxPeek 65535).wellFormed = true := by decide
theorem test_wf_txStart :
    (AsmLine.txStart 256 0 0).wellFormed = false ∧ (AsmLine.txStart 0 256 0).wellFormed = false ∧
    (AsmLine.txStart 0 0 65536).wellFormed = false ∧ (AsmLine.txStart 255 255 65535).wellFormed = true := by decide
theorem test_wf_blocks :
    (AsmLine.crcBlock [0, 256]).wellFormed = false ∧ (AsmLine.rxFeed [256]).wellFormed = false ∧
    (AsmLine.txFrame 256 0 []).wellFormed = false ∧ (AsmLine.txFrame 0 256 []).wellFormed = false ∧
    (AsmLine.txFrame 0 0 [256]).wellFormed = false := by decide
theorem test_wf_long_txFrame : (AsmLine.txFrame 0 0 (List.replicate 65536 0)).wellFormed = false := by
  have h : lenInRange (List.replicate 65536 0).length = false := by rw [List.length_replicate]; decide
  rw [AsmLine.wellFormed, h, Bool.and_false]
theorem test_assemble_txFrame :
    (AsmLine.txFrame 0x06 0x01 [0x00, 0x02]).assemble =
      some [0x3000020106#40, 0x3100000000#40, 0x3100000002#40] := by decide

/-! ## One step each -/

/-- The next state of an operation, if it answers one. -/
def after (i : Instr) (s : State) : Option State :=
  match exec i s with
  | .next t => some t
  | .fault _ => none
  | .refused _ => none

/-- One field of the next state. -/
def sees {α : Type} (f : State → α) (i : Instr) (s : State) : Option α := (after i s).map f

/-- A frame being sent: `crc` so far, `n` bytes to come. -/
def sending (crc : Word) (n : Len) : State := { State.reset with txBusy := true, txCrc := crc, txRemaining := n }

/-- The cells of a list of bytes, from index `k`. -/
def cellsFrom (k : Nat) : List Byte → Memory
  | [] => []
  | b :: rest => (k, b) :: cellsFrom (k + 1) rest

/-- A candidate being collected. -/
def collecting (bytes : List Byte) : State :=
  { State.reset with rxState := .collect, rxCount := BitVec.ofNat 17 bytes.length, rxBuf := cellsFrom 0 bytes }

/-- A held frame. -/
def holding (bytes : List Byte) : State :=
  { State.reset with rxFrameValid := true, rxCount := BitVec.ofNat 17 bytes.length, rxBuf := cellsFrom 0 bytes }

/-- F_ACK without its marker (95, table of frames). -/
def ackCells : List Byte :=
  [0x06#8, 0x01#8, 0x03#8, 0x00#8, 0x00#8, 0x02#8, 0x01#8, 0x25#8, 0x11#8, 0x71#8, 0x37#8]

/-- V1, V12: the CRC of "123456789" and single steps. -/
theorem test_crcStep : crcStep 0xFFFFFFFF#32 0x31#8 = 0x7C231048#32 ∧ crcStep 0#32 0x01#8 = 0x77073096#32 ∧
    crcStep 0#32 0x80#8 = 0xEDB88320#32 ∧ crcStep 0x12345678#32 0x00#8 = 0x5ECCCD58#32 := by decide +kernel
/-- V5, V8. -/
theorem test_crc32 : crc32 [0x61#8] = 0xE8B7BE43#32 ∧ crc32 [0xFF#8, 0xFF#8, 0xFF#8, 0xFF#8] = 0xFFFFFFFF#32 := by decide +kernel
/-- F_QV. -/
theorem test_encode_qv : encodeFrame 0x05#8 0x07#8 [] =
    .ok [0x55#8, 0xAA#8, 0x05#8, 0x07#8, 0x00#8, 0x00#8, 0xAB#8, 0x39#8, 0xD5#8, 0x13#8] := by decide +kernel
/-- C-2, C-3. -/
theorem test_decodeOne_accepts : decodeOne ackCells = .frame 0x06#8 0x01#8 [0x00#8, 0x02#8, 0x01#8] := by decide +kernel
theorem test_decodeOne_rejects : decodeOne (ackCells.set 10 0x36#8) = .mismatch := by decide +kernel

theorem test_nop : sees State.result .nop State.reset = some (some ⟨.ok, 0#32, []⟩) := by decide
/-- R113's example. -/
theorem test_crcInit : sees State.crcAcc .crcInit { State.reset with crcAcc := 0x12345678#32 } =
    some 0xFFFFFFFF#32 := by decide
/-- CRC-1 step 2. -/
theorem test_crcByte : sees State.crcAcc (.crcByte 0x61#8) State.reset = some 0x174841BC#32 := by decide
/-- CRC-1 step 3. -/
theorem test_crcRead : sees State.result .crcRead { State.reset with crcAcc := 0x174841BC#32 } =
    some (some ⟨.ok, 0xE8B7BE43#32, []⟩) := by decide
/-- TX-1 step 2. -/
theorem test_txStart :
    sees (fun t => (t.txBusy, t.txRemaining, t.txOut)) (.txStart 0x06#8 0x01#8 3#16) State.reset =
      some (true, 3#16, [0x55#8, 0xAA#8, 0x06#8, 0x01#8, 0x03#8, 0x00#8]) := by decide
/-- TX-2 step 1. -/
theorem test_txStart_empty :
    sees (fun t => (t.txBusy, t.txOut)) (.txStart 0x05#8 0x07#8 0#16) State.reset =
      some (false, [0x55#8, 0xAA#8, 0x05#8, 0x07#8, 0x00#8, 0x00#8, 0xAB#8, 0x39#8, 0xD5#8, 0x13#8]) := by decide +kernel
/-- TX-1 step 7: the last byte of F_ACK, after `06 01 03 00 00 02`. -/
theorem test_txByte_last :
    sees (fun t => (t.txBusy, t.txRemaining, t.txOut)) (.txByte 0x01#8)
      (sending (crcRegister 0xFFFFFFFF#32 [0x06#8, 0x01#8, 0x03#8, 0x00#8, 0x00#8, 0x02#8]) 1#16) =
      some (false, 0#16, [0x01#8, 0x25#8, 0x11#8, 0x71#8, 0x37#8]) := by decide +kernel
/-- TX-3 step 1. -/
theorem test_txByte_idle : sees State.result (.txByte 0x11#8) State.reset =
    some (some ⟨.paramError, 0#32, []⟩) := by decide
/-- TX-3 step 7. -/
theorem test_txAbort : sees (fun t => (t.txBusy, t.txRemaining)) .txAbort (sending 0#32 3#16) =
    some (false, 0#16) := by decide
/-- TX-1 step 5, C-6. -/
theorem test_txStatus : sees State.result .txStatus (sending 0#32 2#16) = some (some ⟨.ok, 0x00020001#32, []⟩) ∧
    sees State.result .txStatus (sending 0#32 0xFFFF#16) = some (some ⟨.ok, 0xFFFF0001#32, []⟩) := by decide
/-- RX-1 steps 2 and 14. -/
theorem test_rxByte_mark1 : sees (fun t => (t.rxState, t.result)) (.rxByte 0x55#8) State.reset =
    some (.seek2, some ⟨.ok, 1#32, []⟩) := by decide
theorem test_rxByte_frame :
    sees (fun t => (t.rxState, t.rxCount, t.rxFrameValid, t.result)) (.rxByte 0x37#8) (collecting (ackCells.take 10)) =
      some (.seek1, 11#17, true, some ⟨.ok, 5#32, []⟩) := by decide +kernel
/-- RX-1 step 22, RX-9 step 4. -/
theorem test_rxRelease : sees (fun t => (t.rxCount, t.rxFrameValid)) .rxRelease (holding ackCells) =
    some (0#17, false) := by decide
theorem test_rxRelease_nothing : sees (fun t => (t.rxState, t.rxCount)) .rxRelease (collecting [0x06#8]) =
    some (.collect, 1#17) := by decide
/-- RX-9 step 6. -/
theorem test_rxReset : sees (fun t => (t.rxState, t.rxCount)) .rxReset (collecting [0x06#8]) =
    some (.seek1, 0#17) := by decide
/-- RX-1 steps 15 to 20. -/
theorem test_rxStatus : sees State.result .rxStatus (holding ackCells) =
    some (some ⟨.ok, 0x00058004#32, []⟩) := by decide
theorem test_rxReadhdr : sees State.result .rxReadhdr (holding ackCells) =
    some (some ⟨.ok, 0x00030106#32, []⟩) := by decide
theorem test_rxPeek : sees State.result (.rxPeek 1#16) (holding ackCells) =
    some (some ⟨.ok, 0x00000002#32, []⟩) := by decide
theorem test_rxPeek_beyond : sees State.result (.rxPeek 3#16) (holding ackCells) =
    some (some ⟨.paramError, 0#32, []⟩) := by decide

/-- The outcome of one step, seen through its result. -/
def stepSees {α : Type} (f : State → α) (s : State) : Option α :=
  match step s with
  | .next t => some (f t)
  | .fault _ => none
  | .refused _ => none

/-- X-2: ILLEGAL before BUSY. -/
theorem test_priority :
    stepSees State.result ((holding ackCells).withFetchWord 40 0x2100010055) = some (some ⟨.illegal, 0#32, []⟩) ∧
    stepSees State.result ((holding ackCells).withFetchWord 40 0x2100000055) = some (some ⟨.busy, 0#32, []⟩) := by
  decide
/-- X-3. -/
theorem test_reset_input :
    stepSees (fun t => (t.crcAcc, t.rxFrameValid, t.result))
      { holding ackCells with crcAcc := 0x12345678#32, input := [.reset] } = some (0xFFFFFFFF#32, false, none) := by
  decide
/-- The host's checks of an ACK (R92) and of clean garbage (RX-6, RX-7). -/
theorem test_ackAccepted : ackAccepted ⟨0x06#8, 0x01#8, [0x00#8, 0x02#8, 0x01#8]⟩ 0x02#8 0x01#8 = true ∧
    ackAccepted ⟨0x06#8, 0x01#8, [0x01#8, 0x02#8, 0x01#8]⟩ 0x02#8 0x01#8 = false := by decide
theorem test_isClean : isClean [0xAA#8, 0x55#8, 0x00#8, 0x7E#8] = true ∧ isClean [0x13#8, 0x55#8] = false ∧
    isClean [0x55#8, 0xAA#8] = false := by decide

/-! ## Witnesses: a state and operands that meet the hypotheses of each statement -/

theorem reset_inv : Inv State.reset where
  buffer := rfl
  written := by intro i h; simp [State.reset] at h
  tx := by decide
  rx := by constructor <;> decide +kernel

/-- A state that holds F_ACK meets the whole invariant. -/
theorem holding_inv : Inv (holding ackCells) where
  buffer := by decide
  written := by
    intro i h
    have h : i < 11 := h
    interval_cases i <;> decide
  tx := by decide
  rx := by constructor <;> decide +kernel

/-- So does a candidate one byte short of its end. -/
theorem collecting_inv : Inv (collecting (ackCells.take 10)) where
  buffer := by decide
  written := by
    intro i h
    have h : i < 10 := h
    interval_cases i <;> decide
  tx := by decide
  rx := by constructor <;> decide +kernel

theorem witness_StepRunsDecodedOperation : ∃ (s : State) (w : OpWord) (rest : List HostInput) (i : Instr),
    s.input = .word w :: rest ∧ decode w = .ok i :=
  ⟨{ State.reset with input := [.word 0x1100000031#40, .reset] }, 0x1100000031#40, [.reset], .crcByte 0x31#8,
    rfl, by decide⟩
theorem witness_PresentedWordRunsNext : decodeTableWord 40 0x30FFFFFFFF = some (.txStart 0xFF#8 0xFF#8 0xFFFF#16) := by
  decide
theorem witness_EncodeInvertsDecode : decode 0x240000FFFF#40 = .ok (.rxPeek 0xFFFF#16) := by decide
theorem witness_OneTableRowPerLegalWord :
    decode 0x30FFFFFFFF#40 = .ok (.txStart 0xFF#8 0xFF#8 0xFFFF#16) ∧
    (⟨"TX.START", 0x3000000000#40, 0xFF00000000#40⟩ : OpRow) ∈ opRows ∧
    (⟨"TX.START", 0x3000000000#40, 0xFF00000000#40⟩ : OpRow).selects 0x30FFFFFFFF#40 = true := by decide
/-- Each form's lowest and highest reserved bit, and a word of format H. -/
theorem witness_ReservedOperandBitsAreIllegal :
    (opField 0x0000000001#40 ∈ formatNOps ∧ operandField 0x0000000001#40 ≠ 0#32) ∧
    (opField 0x1080000000#40 ∈ formatNOps ∧ operandField 0x1080000000#40 ≠ 0#32) ∧
    (opField 0x1100000100#40 ∈ formatBOps ∧ (operandField 0x1100000100#40).extractLsb' 8 24 ≠ 0#24) ∧
    (opField 0x3180000000#40 ∈ formatBOps ∧ (operandField 0x3180000000#40).extractLsb' 8 24 ≠ 0#24) ∧
    (opField 0x2400010000#40 ∈ formatIOps ∧ (operandField 0x2400010000#40).extractLsb' 16 16 ≠ 0#16) ∧
    (opField 0x2480000000#40 ∈ formatIOps ∧ (operandField 0x2480000000#40).extractLsb' 16 16 ≠ 0#16) ∧
    opField 0x30FFFFFFFF#40 ∈ formatHOps := by decide
theorem witness_UnassignedOpcodesAreIllegal :
    opField 0x0100000000#40 ∉ formatNOps ++ formatBOps ++ formatIOps ++ formatHOps ∧
    opField 0xFF00000000#40 ∉ formatNOps ++ formatBOps ++ formatIOps ++ formatHOps := by decide
theorem witness_IllegalWordHasNoEffect :
    (∀ r ∈ opRows, r.selects 0x2100000155#40 = false) ∧ (∀ r ∈ opRows, r.selects 0x3400000000#40 = false) := by decide
/-- Each range of R86 at its last value and one above, in each kind of line that has the operand. -/
theorem witness_AssembledWordsDecodeToTheLine_bytes :
    (AsmLine.crcByte 255).assemble = some [0x11000000FF#40] ∧ (AsmLine.crcByte 256).assemble = none ∧
    (AsmLine.rxByte 255).assemble = some [0x21000000FF#40] ∧ (AsmLine.rxByte 256).assemble = none ∧
    (AsmLine.txByte 255).assemble = some [0x31000000FF#40] ∧ (AsmLine.txByte 256).assemble = none ∧
    (AsmLine.crcBlock [0, 255]).assemble = some [0x1000000000#40, 0x1100000000#40, 0x11000000FF#40, 0x1200000000#40] ∧
    (AsmLine.crcBlock [0, 256]).assemble = none ∧
    (AsmLine.rxFeed [0, 255]).assemble = some [0x2100000000#40, 0x21000000FF#40] ∧
    (AsmLine.rxFeed [0, 256]).assemble = none := by decide
theorem witness_AssembledWordsDecodeToTheLine_halfwords :
    (AsmLine.rxPeek 65535).assemble = some [0x240000FFFF#40] ∧ (AsmLine.rxPeek 65536).assemble = none ∧
    (AsmLine.txStart 255 254 65535).assemble = some [0x30FFFFFEFF#40] ∧
    (AsmLine.txStart 256 0 0).assemble = none ∧ (AsmLine.txStart 0 256 0).assemble = none ∧
    (AsmLine.txStart 0 0 65536).assemble = none := by decide
/-- R87's empty lists, and the operands of TX.FRAME; its length is in the next theorem. -/
theorem witness_AssembledWordsDecodeToTheLine_pseudo :
    (AsmLine.crcBlock []).assemble = some [0x1000000000#40, 0x1200000000#40] ∧ (AsmLine.rxFeed []).assemble = some [] ∧
    (AsmLine.txFrame 255 254 []).assemble = some [0x300000FEFF#40] ∧
    (AsmLine.txFrame 255 255 [255]).assemble = some [0x300001FFFF#40, 0x31000000FF#40] ∧
    (AsmLine.txFrame 256 0 []).assemble = none ∧ (AsmLine.txFrame 0 256 []).assemble = none ∧
    (AsmLine.txFrame 0 0 [0, 256]).assemble = none ∧
    (AsmLine.word 0x1100000161#40).assemble = some [0x1100000161#40] ∧ AsmLine.emptyPoll.assemble = some [] := by decide
/-- The longest payload of TX.FRAME is well-formed; one byte more is an assembly error. -/
theorem witness_AssembledWordsDecodeToTheLine_length :
    ((List.replicate 65535 255).length ≤ 65535 ∧ ∀ b ∈ List.replicate 65535 255, b ≤ 255) ∧
    (AsmLine.txFrame 0 0 (List.replicate 65535 255)).wellFormed = true ∧
    65535 < (List.replicate 65536 0).length ∧ (AsmLine.txFrame 0 0 (List.replicate 65536 0)).assemble = none := by
  refine ⟨⟨by rw [List.length_replicate], fun b hb => ?_⟩, ?_, by rw [List.length_replicate]; decide, ?_⟩
  · rw [List.eq_of_mem_replicate hb]
  · have hl : lenInRange (List.replicate 65535 255).length = true := by rw [List.length_replicate]; decide
    have hb : (List.replicate 65535 255).all byteInRange = true :=
      List.all_eq_true.2 fun b h => by rw [List.eq_of_mem_replicate h]; decide
    rw [AsmLine.wellFormed, hl, hb]; decide
  · exact AsmLine.assemble_eq_none test_wf_long_txFrame
theorem witness_IdlePortHoldsState : State.reset.input = [] := rfl
/-- Also for the last clause of ResetStateValues. -/
theorem witness_ResetInputFromAnyState : ∃ (s : State) (rest : List HostInput), s.input = .reset :: rest :=
  ⟨{ holding ackCells with input := [.reset] }, [], rfl⟩
theorem witness_CrcUnitReadsCrc32OfItsBytes :
    Inv State.reset ∧ Instr.crcInit ∉ [Instr.crcByte 0x31#8, .crcRead, .rxByte 0x55#8, .crcByte 0x32#8] :=
  ⟨reset_inv, by decide⟩
theorem witness_TxStartBeginsAFrame : (sending 0#32 1#16).txBusy = true ∧ State.reset.txBusy = false ∧
    (1#16 : Len) ≠ 0#16 ∧ (0xFFFF#16 : Len) ≠ 0#16 := by decide
/-- Remaining 1, 2 and 65535. -/
theorem witness_TxByteSuppliesPayload :
    State.reset.txBusy = false ∧
    (TxInv (sending 0#32 1#16) ∧ (sending 0#32 1#16).txBusy = true ∧ (sending 0#32 1#16).txRemaining = 1#16) ∧
    (TxInv (sending 0#32 2#16) ∧ (sending 0#32 2#16).txBusy = true ∧ (sending 0#32 2#16).txRemaining ≠ 1#16) ∧
    (TxInv (sending 0#32 0xFFFF#16) ∧ (sending 0#32 0xFFFF#16).txRemaining ≠ 1#16) := by
  simp [TxInv, sending, State.reset]
theorem witness_TxAbortReturnsToIdle : TxInv State.reset ∧ State.reset.txBusy = false := ⟨reset_inv.tx, rfl⟩
theorem witness_EncodeRejectsOnlyLongPayloads :
    65535 < (List.replicate 65536 (0#8 : Byte)).length ∧ (List.replicate 65535 (0#8 : Byte)).length ≤ 65535 ∧
    65535 < (List.replicate 65536 (0 : Nat)).length := by
  simp only [List.length_replicate]
  omega
/-- EncodedFrameHasWireLayout, DecodeOneInvertsEncode, and the frame of the RX statements: the empty payload, and one
of 65535 bytes. -/
theorem witness_EncodedFrame : (∃ f, encodeFrame 0x05#8 0x07#8 [] = .ok f) ∧
    (∃ f, encodeFrame 0x05#8 0x07#8 (List.replicate 65535 0#8) = .ok f) := by
  refine ⟨⟨_, rfl⟩, ⟨frameBytes 0x05#8 0x07#8 (List.replicate 65535 0#8), ?_⟩⟩
  rw [encodeFrame, if_pos (by rw [List.length_replicate]; decide)]
theorem witness_SingleBitErrorIsDetected :
    isCandidate ackCells = true ∧ decodeOne ackCells = .frame 0x06#8 0x01#8 [0x00#8, 0x02#8, 0x01#8] ∧
    0 < ackCells.length ∧ 10 < ackCells.length := by decide +kernel
theorem witness_TxStreamIsTheEncodedFrame :
    Inv State.reset ∧ State.reset.txBusy = false ∧ (∃ f, encodeFrame 0x04#8 0x05#8 [0x00#8] = .ok f) ∧
    [Instr.crcInit, .txStart 0x04#8 0x05#8 1#16, .rxByte 0x55#8, .txByte 0x00#8].filter isTxOp =
      txFrameOps 0x04#8 0x05#8 [0x00#8] :=
  ⟨reset_inv, rfl, ⟨_, rfl⟩, by decide⟩
theorem witness_RxByteIsBusyWhileHeld : (holding ackCells).rxFrameValid = true := rfl
theorem witness_RxByteInSeek1 : State.reset.rxFrameValid = false ∧ State.reset.rxState = .seek1 := ⟨rfl, rfl⟩
theorem witness_RxByteInSeek2 : ∃ s : State, s.rxFrameValid = false ∧ s.rxState = .seek2 :=
  ⟨{ State.reset with rxState := .seek2 }, rfl, rfl⟩
/-- The three ends of an append: not complete (its fourth byte), complete with a match, complete with a mismatch; and
the last cell of the buffer. -/
theorem witness_RxByteInCollect :
    ((collecting (ackCells.take 3)).rxState = .collect ∧ (collecting (ackCells.take 3)).rxCount.toNat + 1 = 4) ∧
    rxComplete (rxAppend 0x00#8 (collecting (ackCells.take 3))) = false ∧
    (rxComplete (rxAppend 0x37#8 (collecting (ackCells.take 10))) = true ∧
      decodeOne (rxCells (rxAppend 0x37#8 (collecting (ackCells.take 10))) 11) =
        .frame 0x06#8 0x01#8 [0x00#8, 0x02#8, 0x01#8]) ∧
    (rxComplete (rxAppend 0x36#8 (collecting (ackCells.take 10))) = true ∧
      decodeOne (rxCells (rxAppend 0x36#8 (collecting (ackCells.take 10))) 11) = .mismatch) ∧
    ({ State.reset with rxState := .collect, rxCount := 65542#17 } : State).rxCount.toNat < 65543 := by decide +kernel
theorem witness_RxByteStopsOutsideTheBuffer : ∃ s : State,
    s.rxFrameValid = false ∧ s.rxState = .collect ∧ 65543 ≤ s.rxCount.toNat :=
  ⟨{ State.reset with rxState := .collect, rxCount := 65543#17 }, by decide⟩
theorem witness_RxReadhdrReturnsHeader : State.reset.rxFrameValid = false ∧ (holding ackCells).rxFrameValid = true :=
  ⟨rfl, rfl⟩
/-- The last readable index, the first index beyond. -/
theorem witness_RxPeekReturnsPayloadByte :
    State.reset.rxFrameValid = false ∧ (holding ackCells).rxFrameValid = true ∧
    (2#16 : Len).toNat < (le16 (rxCell (holding ackCells) 2) (rxCell (holding ackCells) 3)).toNat ∧
    (le16 (rxCell (holding ackCells) 2) (rxCell (holding ackCells) 3)).toNat ≤ (3#16 : Len).toNat := by decide
theorem witness_RxReleaseFreesHeldFrame : (holding ackCells).rxFrameValid = true ∧ State.reset.rxFrameValid = false :=
  ⟨rfl, rfl⟩
theorem witness_RxEventCodesSayTheTransition : ∃ t r,
    exec (.rxByte 0x55#8) State.reset = .next t ∧ t.result = some r ∧ r.status = .ok := ⟨_, _, rfl, rfl, rfl⟩
theorem witness_FramesAmongCleanGarbageAreReceived :
    isClean [0x00#8, 0xFF#8, 0x13#8, 0xAA#8] = true ∧ isClean [0xAA#8, 0x55#8, 0x00#8, 0x7E#8] = true ∧
    isClean [] = true ∧ isClean [0x55#8] = false ∧ (0x55#8 : Byte) ∉ [0x00#8, 0xAA#8] := by decide
theorem witness_StrayMarkerByteLosesTheFrame : ∃ f, encodeFrame 0x05#8 0x07#8 [] = .ok f ∧ 0x55#8 ∉ f.drop 2 :=
  ⟨_, rfl, by decide +kernel⟩
theorem witness_HeldFrameRefusesEveryByte : (holding ackCells).rxFrameValid = true := rfl
theorem witness_ShortCandidateStaysInCollect :
    (collecting (ackCells.take 4)).rxFrameValid = false ∧ (collecting (ackCells.take 4)).rxState = .collect ∧
    4 ≤ (collecting (ackCells.take 4)).rxCount.toNat ∧
    (collecting (ackCells.take 4)).rxCount.toNat + [0x55#8, 0xAA#8, 0x00#8, 0x00#8, 0x00#8, (0x00#8 : Byte)].length <
      rxExpect (collecting (ackCells.take 4)) := by decide
theorem witness_NonOkResultChangesNothing : ∃ t r,
    step ((holding ackCells).withFetchWord 40 0x2100000055) = .next t ∧ t.result = some r ∧ r.status ≠ .ok :=
  ⟨_, _, rfl, rfl, by decide⟩
theorem witness_BusyHasOneCause : ∃ t r,
    exec (.rxByte 0x55#8) (holding ackCells) = .next t ∧ t.result = some r ∧ r.status = .busy := ⟨_, _, rfl, rfl, rfl⟩
/-- Each of the five causes. -/
theorem witness_ParamErrorHasTheListedCauses :
    sees State.result (.txStart 0#8 0#8 0#16) (sending 0#32 1#16) = some (some ⟨.paramError, 0#32, []⟩) ∧
    sees State.result (.txByte 0#8) State.reset = some (some ⟨.paramError, 0#32, []⟩) ∧
    sees State.result .rxReadhdr State.reset = some (some ⟨.paramError, 0#32, []⟩) ∧
    sees State.result (.rxPeek 0#16) State.reset = some (some ⟨.paramError, 0#32, []⟩) ∧
    sees State.result (.rxPeek 3#16) (holding ackCells) = some (some ⟨.paramError, 0#32, []⟩) := by decide
theorem witness_IllegalIsCheckedFirst : ∃ s t w rest r,
    s.input = .word w :: rest ∧ step s = .next t ∧ t.result = some r ∧ r.status = .illegal :=
  ⟨{ holding ackCells with input := [.word 0x2100010055#40] }, _, 0x2100010055#40, [], _, rfl, rfl, rfl, rfl⟩
theorem witness_UnitsAreDisjointAndCommute :
    (Instr.txByte 0#8).cfeUnit ≠ (Instr.rxByte 0#8).cfeUnit ∧
    (∃ a, exec (.txByte 0#8) (sending 0#32 1#16) = .next a) ∧ (∃ a, exec (.rxByte 0#8) (sending 0#32 1#16) = .next a) :=
  ⟨by decide, ⟨_, rfl⟩, ⟨_, rfl⟩⟩
theorem witness_OnlyTheAppendedCellChanges :
    rxStoreIndex (.rxByte 0x37#8) (collecting (ackCells.take 10)) = some 10 ∧
    rxStoreIndex (.rxByte 0x37#8) (holding ackCells) = none ∧ rxStoreIndex .rxReset State.reset = none ∧
    (after (.rxByte 0x37#8) (collecting (ackCells.take 10))).isSome = true := by decide +kernel
theorem witness_ReadsAreIdempotent : isReadOp (.rxPeek 0#16) = true ∧ isReadOp .crcRead = true := by decide
theorem witness_OutputQueueKeepsOrder : ∃ t, step (State.reset.withFetchWord 40 0x3000000705) = .next t :=
  ⟨_, rfl⟩
/-- A fall by RX.RELEASE, a rise by the last byte of a candidate. -/
theorem witness_FrameReadyChangesOnlyAsListed :
    stepSees rxFrameReady ((holding ackCells).withFetchWord 40 0x2200000000) = some false ∧
    rxFrameReady (holding ackCells) = true ∧
    stepSees rxFrameReady ((collecting (ackCells.take 10)).withFetchWord 40 0x2100000037) = some true ∧
    rxFrameReady (collecting (ackCells.take 10)) = false := by decide +kernel
theorem witness_EveryStepKeepsTheInvariant : ∃ s t, Inv s ∧ step s = .next t ∧ s.rxState = .collect :=
  ⟨collecting (ackCells.take 10), _, collecting_inv, rfl, rfl⟩
theorem witness_EveryStepCompletes : Inv (holding ackCells) := holding_inv
theorem witness_BufferStaysCanonical : Memory.wf (holding ackCells).rxBuf = true ∧ ∃ t, step (holding ackCells) = .next t :=
  ⟨by decide, ⟨_, rfl⟩⟩
/-- Two reset states with different draws and different idle `tx_crc`. -/
theorem witness_UnspecifiedStateIsUnobservable : ∃ s s' t,
    Inv s ∧ Inv s' ∧ SameToHost s s' ∧ step s = .next t ∧ s ≠ s' := by
  refine ⟨State.reset, { State.reset with txCrc := 0#32, rxBufEpoch := 7 }, _, reset_inv, ?_, ?_, rfl, by decide⟩
  · exact ⟨rfl, by intro i h; simp [State.reset] at h, by decide, by constructor <;> simp [State.reset]⟩
  · constructor <;> simp [State.reset]

end Sys2Proof.Tests
end

section
/-! SUPPORT and PROOFS. The statements about the state (spec/10_state.md): what an operation and a step can do, the frame
of memory, the level `rx_frame_ready`, the reset values, and the invariants of R27 and R33. -/

namespace Sys2Proof.Machine

/-! ## The cells as a list, and an append -/

theorem rxCells_congr {s t : State} {k : Nat} (h : ∀ i, i < k → rxCell s i = rxCell t i) :
    rxCells s k = rxCells t k :=
  List.map_congr_left fun i hi => h i (List.mem_range.mp hi)

theorem byteAt_rxCells (s : State) {i k : Nat} (h : i < k) : byteAt (rxCells s k) i = rxCell s i := by
  simp [byteAt, rxCells, List.getD, h]

theorem take_rxCells (s : State) {j k : Nat} (h : j ≤ k) : (rxCells s k).take j = rxCells s j := by
  simp [rxCells, ← List.map_take, List.take_range, h]

/-- The length `decodeOne` reads from the collected cells is the one the completion check reads (R133, R164). -/
theorem candidateLength_rxCells (s : State) {k : Nat} (h : 4 ≤ k) :
    candidateLength (rxCells s k) = (rxLength s).toNat := by
  simp only [candidateLength, rxLength, byteAt_rxCells s (show 2 < k by omega), byteAt_rxCells s (show 3 < k by omega)]

theorem rxComplete_iff (s : State) :
    rxComplete s = true ↔ 4 ≤ s.rxCount.toNat ∧ s.rxCount.toNat = rxExpect s := by
  simp [rxComplete]

/-- `rx_expect` is 8 to 65543 (R32). -/
theorem rxExpect_bounds (s : State) : 8 ≤ rxExpect s ∧ rxExpect s ≤ 65543 := by
  have := (rxLength s).isLt
  simp only [rxExpect]
  omega

theorem rxExpect_congr {s t : State} (h2 : rxCell s 2 = rxCell t 2) (h3 : rxCell s 3 = rxCell t 3) :
    rxExpect s = rxExpect t := by
  simp only [rxExpect, rxLength, h2, h3]

/-- The 17-bit counter does not wrap in an append to a cell of the buffer (R30). -/
theorem rxAppend_rxCount_toNat (d : Byte) {s : State} (h : s.rxCount.toNat < 65543) :
    (rxAppend d s).rxCount.toNat = s.rxCount.toNat + 1 := by
  rw [rxAppend_rxCount, BitVec.toNat_add_of_lt (by simp; omega)]
  simp

/-- Once the length bytes are in place, an append does not change `rx_expect` (R32). -/
theorem rxExpect_rxAppend (d : Byte) {s : State} (h : 4 ≤ s.rxCount.toNat) : rxExpect (rxAppend d s) = rxExpect s :=
  rxExpect_congr (by rw [rxCell_rxAppend, if_neg (by omega)]) (by rw [rxCell_rxAppend, if_neg (by omega)])

/-- An accepted candidate carries the CRC of its header and payload (R133). -/
theorem crc32_of_decodeOne_eq_frame {bytes p : List Byte} {cmd seq : Byte} (h : decodeOne bytes = .frame cmd seq p) :
    crc32 (bytes.take (4 + candidateLength bytes)) =
      le32 (byteAt bytes (4 + candidateLength bytes)) (byteAt bytes (5 + candidateLength bytes))
        (byteAt bytes (6 + candidateLength bytes)) (byteAt bytes (7 + candidateLength bytes)) := by
  by_contra hne
  rw [(decodeOne_eq_mismatch_iff bytes).mpr hne] at h
  cases h

/-! ## What one operation can do -/

/-- What an operation can do to the state, one case for each unit it may touch; `rxByte` has its own case lemma. -/
inductive ExecEffect (i : Instr) (s t : State) : Prop where
  | resultOnly (r : OpResult) (ht : t = withResult r s)
  | crc (hi : i.cfeUnit = .crc) (c : Word) (r : OpResult) (ht : t = withResult r { s with crcAcc := c })
  | tx (hi : i.cfeUnit = .tx) (busy : Bool) (n : Len) (c : Word) (r : OpResult)
      (hinv : TxInv s → (busy = false ↔ n = 0#16))
      (ht : t = withResult r { s with txBusy := busy, txRemaining := n, txCrc := c })
  | rxEmptied (hi : i = .rxReset ∨ i = .rxRelease) (x : RxState) (r : OpResult)
      (ht : t = withResult r { s with rxState := x, rxCount := 0#17, rxFrameValid := false })
  | rxByte (d : Byte) (hi : i = .rxByte d) (ht : execRxByte d s = .next t)

theorem execRxReadhdr_result {s t : State} (h : execRxReadhdr s = .next t) : ∃ r, t = withResult r s := by
  unfold execRxReadhdr at h
  split at h <;> exact ⟨_, (ret_next_iff _ _ _ _ _).mp h⟩

theorem execRxPeek_result {idx : Len} {s t : State} (h : execRxPeek idx s = .next t) : ∃ r, t = withResult r s := by
  unfold execRxPeek at h
  split at h
  · split at h <;> exact ⟨_, (ret_next_iff _ _ _ _ _).mp h⟩
  · exact ⟨_, (ret_next_iff _ _ _ _ _).mp h⟩

theorem execTxStart_effect {cmd seq : Byte} {len : Len} {s t : State} (h : execTxStart cmd seq len s = .next t) :
    ExecEffect (.txStart cmd seq len) s t := by
  unfold execTxStart at h
  split at h
  · exact .resultOnly _ ((ret_next_iff _ _ _ _ _).mp h)
  · split at h
    · exact .tx rfl false 0#16 _ _ (by simp) ((ret_next_iff _ _ _ _ _).mp h)
    · next hlen => exact .tx rfl true len _ _ (fun _ => by simp [hlen]) ((ret_next_iff _ _ _ _ _).mp h)

theorem execTxByte_effect {d : Byte} {s t : State} (h : execTxByte d s = .next t) :
    ExecEffect (.txByte d) s t := by
  unfold execTxByte at h
  split at h
  · next hbusy =>
    split at h
    · next hlast => exact .tx rfl false _ _ _ (by simp [hlast]) ((ret_next_iff _ _ _ _ _).mp h)
    · next hmore =>
      have hne : s.txRemaining - 1#16 ≠ 0#16 := by bv_omega
      exact .tx rfl s.txBusy _ _ _ (by simp [hbusy, hne]) ((ret_next_iff _ _ _ _ _).mp h)
  · exact .resultOnly _ ((ret_next_iff _ _ _ _ _).mp h)

theorem execRxRelease_effect {s t : State} (h : execRxRelease s = .next t) : ExecEffect .rxRelease s t := by
  have ht := (ret_next_iff _ _ _ _ _).mp h
  split at ht
  · exact .rxEmptied (.inr rfl) s.rxState _ ht
  · exact .resultOnly _ ht

/-- Every operation that answers a next state has one of the effects (R61). -/
theorem exec_effect {i : Instr} {s t : State} (h : exec i s = .next t) : ExecEffect i s t := by
  cases i with
  | nop => exact .resultOnly _ ((ret_next_iff _ _ _ _ _).mp h)
  | crcInit => exact .crc rfl _ _ ((ret_next_iff _ _ _ _ _).mp h)
  | crcByte d => exact .crc rfl _ _ ((ret_next_iff _ _ _ _ _).mp h)
  | crcRead => exact .resultOnly _ ((ret_next_iff _ _ _ _ _).mp h)
  | rxReset => exact .rxEmptied (.inl rfl) _ _ ((ret_next_iff _ _ _ _ _).mp h)
  | rxByte d => exact .rxByte d rfl h
  | rxRelease => exact execRxRelease_effect h
  | rxReadhdr => exact (execRxReadhdr_result h).elim .resultOnly
  | rxPeek idx => exact (execRxPeek_result h).elim .resultOnly
  | rxStatus => exact .resultOnly _ ((ret_next_iff _ _ _ _ _).mp h)
  | txStart cmd seq len => exact execTxStart_effect h
  | txByte d => exact execTxByte_effect h
  | txAbort => exact .tx rfl false 0#16 s.txCrc _ (by simp) ((ret_next_iff _ _ _ _ _).mp h)
  | txStatus => exact .resultOnly _ ((ret_next_iff _ _ _ _ _).mp h)

/-! ## The frame of memory (R29, R57) -/

/-- RX.BYTE touches its own unit only (R61), and neither the inputs still to come nor the draw (logs 1, 2). -/
theorem execRxByte_frame {d : Byte} {s t : State} (h : execRxByte d s = .next t) :
    SameCrcUnit s t ∧ SameTxUnit s t ∧ t.txOut = s.txOut ∧ t.input = s.input ∧ t.rxBufEpoch = s.rxBufEpoch := by
  obtain ⟨_, rfl⟩ | ⟨_, _, _, rfl⟩ | ⟨_, _, _, rfl⟩ | ⟨_, _, _, rfl⟩ | ⟨_, _, _, rfl⟩ |
    ⟨_, _, _, ⟨_, rfl⟩ | ⟨_, _, rfl⟩ | ⟨_, rfl⟩⟩ := execRxByte_cases h <;>
    exact ⟨rfl, ⟨rfl, rfl, rfl⟩, rfl, rfl, rfl⟩

/-- What the host presents and the draw of the unwritten cells stay (logs 1, 2). -/
theorem exec_keeps_input_epoch {i : Instr} {s t : State} (h : exec i s = .next t) :
    t.input = s.input ∧ t.rxBufEpoch = s.rxBufEpoch := by
  cases exec_effect h with
  | resultOnly _ ht | crc _ _ _ ht | tx _ _ _ _ _ _ ht | rxEmptied _ _ _ ht => subst ht; exact ⟨rfl, rfl⟩
  | rxByte _ _ ht =>
    obtain ⟨_, _, _, hinput, hepoch⟩ := execRxByte_frame ht
    exact ⟨hinput, hepoch⟩

theorem exec_keeps_rxBuf {i : Instr} {s t : State} (hi : ∀ d, i ≠ .rxByte d) (h : exec i s = .next t) :
    t.rxBuf = s.rxBuf := by
  cases exec_effect h with
  | resultOnly _ ht | crc _ _ _ ht | tx _ _ _ _ _ _ ht | rxEmptied _ _ _ ht => subst ht; rfl
  | rxByte d hd _ => exact absurd hd (hi d)

/-- RX.BYTE stores its byte in the cell `rx_count`, which exists, or stores nothing (R163, R29). -/
theorem execRxByte_rxBuf {d : Byte} {s t : State} (h : execRxByte d s = .next t) :
    (rxStoreIndex (.rxByte d) s = none ∧ t.rxBuf = s.rxBuf) ∨
    (rxStoreIndex (.rxByte d) s = some s.rxCount.toNat ∧ s.rxCount.toNat < Config.rxCap ∧
      t.rxBuf = Memory.write s.rxBuf s.rxCount.toNat d) := by
  obtain ⟨hv, rfl⟩ | ⟨hv, hs, _, rfl⟩ | ⟨hv, hs, _, rfl⟩ | ⟨hv, hs, _, rfl⟩ | ⟨hv, hs, _, rfl⟩ | ⟨hv, hs, hc, ht⟩ :=
    execRxByte_cases h
  · exact .inl ⟨by simp [rxStoreIndex, hv], rfl⟩
  · exact .inl ⟨by simp [rxStoreIndex, hs], rfl⟩
  · exact .inl ⟨by simp [rxStoreIndex, hs], rfl⟩
  · exact .inl ⟨by simp [rxStoreIndex, hs], rfl⟩
  · exact .inl ⟨by simp [rxStoreIndex, hs], rfl⟩
  · refine .inr ⟨by simp [rxStoreIndex, hv, hs], hc, ?_⟩
    obtain ⟨_, rfl⟩ | ⟨_, _, rfl⟩ | ⟨_, rfl⟩ := ht <;> rfl

theorem rxStoreIndex_eq_none {i : Instr} (hi : ∀ d, i ≠ .rxByte d) (s : State) : rxStoreIndex i s = none := by
  cases i with
  | rxByte d => exact absurd rfl (hi d)
  | _ => rfl

/-- Every operation stores in the cell `rxStoreIndex` names, which exists, or stores nothing. -/
theorem exec_rxBuf {i : Instr} {s t : State} (h : exec i s = .next t) :
    (rxStoreIndex i s = none ∧ t.rxBuf = s.rxBuf) ∨
    (∃ d, i = .rxByte d ∧ rxStoreIndex i s = some s.rxCount.toNat ∧ s.rxCount.toNat < Config.rxCap ∧
      t.rxBuf = Memory.write s.rxBuf s.rxCount.toNat d) := by
  by_cases hi : ∃ d, i = .rxByte d
  · obtain ⟨d, rfl⟩ := hi
    exact (execRxByte_rxBuf h).imp id fun hw => ⟨d, rfl, hw⟩
  · have hi : ∀ d, i ≠ .rxByte d := fun d hd => hi ⟨d, hd⟩
    exact .inl ⟨rxStoreIndex_eq_none hi s, exec_keeps_rxBuf hi h⟩

/-- Settles O51: an operation either leaves the buffer alone or writes the one cell `rxStoreIndex` names. -/
theorem onlyTheAppendedCellChanges : Obligations.OnlyTheAppendedCellChanges := by
  intro i s t h
  obtain ⟨hinput, hepoch⟩ := exec_keeps_input_epoch h
  obtain ⟨hnone, hbuf⟩ | ⟨d, rfl, hsome, _, hbuf⟩ := exec_rxBuf h
  · exact ⟨fun _ _ b _ => rxCell_congr hbuf hepoch b, fun _ b => rxCell_congr hbuf hepoch b,
      fun _ _ _ ha => absurd (hnone ▸ ha) (by simp), hinput, hepoch⟩
  · have hcell (b : Nat) : rxCell t b = rxCell (rxAppend d s) b :=
      rxCell_congr (t := rxAppend d s) hbuf hepoch b
    simp only [rxCell_rxAppend] at hcell
    refine ⟨fun a ha b hb => ?_, fun hn => absurd (hsome ▸ hn) (by simp), fun d' a hd ha => ?_, hinput, hepoch⟩
    · obtain rfl : s.rxCount.toNat = a := Option.some.inj (hsome.symm.trans ha)
      rw [hcell, if_neg hb]
    · obtain rfl : s.rxCount.toNat = a := Option.some.inj (hsome.symm.trans ha)
      cases hd
      rw [hcell, if_pos rfl]

/-! ## What one step can do -/

/-- The four kinds of step (R202, R240, R223): idle, reset, a decoded operation, an illegal word. -/
inductive StepEffect (s t : State) : Prop where
  | idle (hin : s.input = []) (ht : t = { s with result := none })
  | reset (rest : List HostInput) (hin : s.input = .reset :: rest)
      (ht : t = { State.reset with rxBufEpoch := s.rxBufEpoch + 1, input := rest, txOut := s.txOut })
  | operation (w : OpWord) (rest : List HostInput) (i : Instr) (hin : s.input = .word w :: rest)
      (hw : decode w = .ok i) (ht : exec i (withInput rest s) = .next t)
  | illegal (w : OpWord) (rest : List HostInput) (hin : s.input = .word w :: rest)
      (ht : t = withResult ⟨.illegal, 0#32, []⟩ (withInput rest s))

theorem step_effect {s t : State} (h : step s = .next t) : StepEffect s t := by
  unfold step at h
  split at h
  · next hin => exact .idle hin (Host.Outcome.next.inj h).symm
  · next rest hin => exact .reset rest hin (Host.Outcome.next.inj h).symm
  · next w rest hin =>
    split at h
    · next i hw => exact .operation w rest i hin hw h
    · exact .illegal w rest hin ((ret_next_iff _ _ _ _ _).mp h)

/-- Settles O58: the only write is to an existing cell, and a write keeps the form. -/
theorem bufferStaysCanonical : Obligations.BufferStaysCanonical := by
  intro s t hwf h
  cases step_effect h with
  | idle _ ht | illegal _ _ _ ht => subst ht; exact hwf
  | reset _ _ ht => subst ht; exact Memory.wf_nil
  | operation _ _ _ _ _ ht =>
    obtain ⟨_, hbuf⟩ | ⟨d, _, _, hc, hbuf⟩ := exec_rxBuf ht
    · exact hbuf ▸ hwf
    · exact hbuf ▸ Memory.wf_write _ _ d hc hwf

/-! ## A legal word is its operation's word (R80 to R84) -/

/-- A word is the one of the operation that has its two fields (R80). -/
theorem encode_eq_of_fields {w : OpWord} {i : Instr} (hop : (opField w).toNat = i.opcode.toNat)
    (hx : i.operand = operandField w) : encode i = w := by
  rw [encode, hx, ← BitVec.eq_of_toNat_eq hop, opWord_fields]

/-- A word whose bits from `n` up are 0 is its low `n` bits, zero-extended (R81, R83). -/
theorem setWidth_low_of_high_zero {x : Word} {n m : Nat} (hm : n + m = 32) (h : x.extractLsb' n m = 0#m) :
    (x.extractLsb' 0 n).setWidth 32 = x := by
  apply BitVec.eq_of_getLsbD_eq
  intro k hk
  by_cases hkn : k < n
  · simp [hk, hkn]
  · have hbit : x.getLsbD k = false := by
      simpa [show k - n < m by omega, show n + (k - n) = k by omega] using congrArg (BitVec.getLsbD · (k - n)) h
    simp [hkn, hbit]

theorem operandH_fields (x : Word) :
    operandH (x.extractLsb' 0 8) (x.extractLsb' 8 8) (x.extractLsb' 16 16) = x := by
  apply BitVec.eq_of_getLsbD_eq
  intro k hk
  rw [operandH_getLsbD]
  split
  · next h8 => simp [h8]
  · split
    · simp [show k - 8 < 8 by omega, show 8 + (k - 8) = k by omega]
    · simp [show k - 16 < 16 by omega, show 16 + (k - 16) = k by omega]

theorem encode_of_decodeN {w : OpWord} {i j : Instr} (h : decodeN (operandField w) i = .ok j)
    (hop : (opField w).toNat = i.opcode.toNat) (hx : i.operand = 0#32) : encode j = w := by
  unfold decodeN at h
  split at h
  · next hz =>
    cases h
    exact encode_eq_of_fields hop (hx.trans hz.symm)
  · cases h

theorem encode_of_decodeB {w : OpWord} {mk : Byte → Instr} {j : Instr} (h : decodeB (operandField w) mk = .ok j)
    (hop : ∀ d, (opField w).toNat = (mk d).opcode.toNat) (hx : ∀ d, (mk d).operand = operandB d) : encode j = w := by
  unfold decodeB at h
  split at h
  · next hz =>
    cases h
    exact encode_eq_of_fields (hop _) ((hx _).trans (setWidth_low_of_high_zero rfl hz))
  · cases h

/-- A legal word is the word of the operation it decodes to (R80 to R84). -/
theorem encode_of_decode {w : OpWord} {i : Instr} (h : decode w = .ok i) : encode i = w := by
  unfold decode at h
  split at h
  · next hop => exact encode_of_decodeN h hop rfl
  · next hop => exact encode_of_decodeN h hop rfl
  · next hop => exact encode_of_decodeB h (fun _ => hop) (fun _ => rfl)
  · next hop => exact encode_of_decodeN h hop rfl
  · next hop => exact encode_of_decodeN h hop rfl
  · next hop => exact encode_of_decodeB h (fun _ => hop) (fun _ => rfl)
  · next hop => exact encode_of_decodeN h hop rfl
  · next hop => exact encode_of_decodeN h hop rfl
  · next hop =>
    unfold decodeI at h
    split at h
    · next hz =>
      cases h
      exact encode_eq_of_fields hop (setWidth_low_of_high_zero rfl hz)
    · cases h
  · next hop => exact encode_of_decodeN h hop rfl
  · next hop =>
    cases h
    exact encode_eq_of_fields hop (operandH_fields _)
  · next hop => exact encode_of_decodeB h (fun _ => hop) (fun _ => rfl)
  · next hop => exact encode_of_decodeN h hop rfl
  · next hop => exact encode_of_decodeN h hop rfl
  · cases h

/-! ## The level `rx_frame_ready` (R35, R216) -/

/-- Only RX.RESET and RX.RELEASE drop a held frame (R216). -/
theorem exec_frameValid_falls {i : Instr} {s t : State} (h : exec i s = .next t) (hs : s.rxFrameValid = true)
    (ht : t.rxFrameValid = false) : i = .rxRelease ∨ i = .rxReset := by
  cases exec_effect h with
  | resultOnly _ he | crc _ _ _ he | tx _ _ _ _ _ _ he =>
    rw [he] at ht
    exact absurd (hs.symm.trans ht) (by decide)
  | rxEmptied hi => exact hi.symm
  | rxByte d _ he =>
    rw [execRxByte, if_pos hs, raise, ret_next_iff] at he
    rw [he] at ht
    exact absurd (hs.symm.trans ht) (by decide)

/-- Only RX.BYTE in COLLECT makes a frame held (R165). -/
theorem exec_frameValid_rises {i : Instr} {s t : State} (h : exec i s = .next t) (hs : s.rxFrameValid = false)
    (ht : t.rxFrameValid = true) : s.rxState = .collect ∧ ∃ d, i = .rxByte d := by
  cases exec_effect h with
  | resultOnly _ he | crc _ _ _ he | tx _ _ _ _ _ _ he =>
    rw [he] at ht
    exact absurd (hs.symm.trans ht) (by decide)
  | rxEmptied _ _ _ he =>
    rw [he] at ht
    cases ht
  | rxByte d hi he =>
    obtain ⟨_, rfl⟩ | ⟨_, _, _, rfl⟩ | ⟨_, _, _, rfl⟩ | ⟨_, _, _, rfl⟩ | ⟨_, _, _, rfl⟩ | ⟨_, hcollect, _⟩ :=
      execRxByte_cases he
    case inr.inr.inr.inr.inr => exact ⟨hcollect, d, hi⟩
    all_goals exact absurd (hs.symm.trans ht) (by decide)

/-- Settles O54: the flag changes in three operations and in reset; a word that decodes to one of them is its word. -/
theorem frameReadyChangesOnlyAsListed : Obligations.FrameReadyChangesOnlyAsListed := by
  refine ⟨fun _ => rfl, fun s t h => ?_⟩
  unfold rxFrameReady
  cases step_effect h with
  | idle _ he | illegal _ _ _ he =>
    subst he
    exact ⟨fun hs ht => absurd (hs.symm.trans ht) (by decide), fun hs ht => absurd (hs.symm.trans ht) (by decide)⟩
  | reset rest hin he =>
    subst he
    exact ⟨fun _ _ => ⟨rest, .inl hin⟩, fun _ ht => nomatch ht⟩
  | operation w rest i hin hw he =>
    rw [← encode_of_decode hw] at hin
    refine ⟨fun hs ht => ⟨rest, .inr ?_⟩, fun hs ht => ?_⟩
    · obtain rfl | rfl := exec_frameValid_falls he hs ht
      · exact .inl hin
      · exact .inr hin
    · obtain ⟨hcollect, d, rfl⟩ := exec_frameValid_rises he hs ht
      exact ⟨hcollect, d, rest, hin⟩

/-! ## Reset (R36) -/

/-- A cell nothing has written holds the draw (log 1). -/
theorem rxCell_of_rxBuf_nil {s : State} (h : s.rxBuf = []) (i : Nat) : rxCell s i = Config.rxBufDraw s.rxBufEpoch i := by
  rw [rxCell, h]
  rfl

theorem step_of_reset {s t : State} {rest : List HostInput} (hin : s.input = .reset :: rest) (h : step s = .next t) :
    t = { State.reset with rxBufEpoch := s.rxBufEpoch + 1, input := rest, txOut := s.txOut } := by
  rw [step, hin] at h
  exact (Host.Outcome.next.inj h).symm

/-- Settles O13: by the definition of the reset state; a reset input leaves no written cell. -/
theorem resetStateValues : Obligations.ResetStateValues := by
  refine ⟨rfl, rfl, rfl, rfl, rfl, rfl, rfl, rxCell_of_rxBuf_nil rfl, fun s t rest hin h i => ?_⟩
  rw [step_of_reset hin h]
  exact rxCell_of_rxBuf_nil rfl i

/-- Settles O34: the bound check of COLLECT fails. -/
theorem rxByteStopsOutsideTheBuffer : Obligations.RxByteStopsOutsideTheBuffer := by
  intro s d hv hs hc
  have hfull : ¬ s.rxCount.toNat < Config.rxCap := Nat.not_lt.mpr hc
  simp [exec, execRxByte, rxCollect, hv, hs, hfull]

/-! ## The invariant (R27, R33) -/

/-- With no byte collected and no frame held the RX invariant holds, whatever the synchronizer's state (R33). -/
theorem rxInv_of_empty {s : State} (hv : s.rxFrameValid = false) (hc : s.rxCount = 0#17) : RxInv s := by
  constructor <;> simp [hv, hc]

theorem cellsWritten_of_empty {s : State} (hc : s.rxCount = 0#17) : CellsWritten s := by
  intro i hi
  simp [hc] at hi

/-- An empty RX unit meets its part of the invariant. -/
theorem inv_of_empty {s : State} (hbuf : Memory.wf s.rxBuf = true) (htx : TxInv s) (hv : s.rxFrameValid = false)
    (hc : s.rxCount = 0#17) : Inv s :=
  ⟨hbuf, cellsWritten_of_empty hc, htx, rxInv_of_empty hv hc⟩

/-- Settles O55: after reset no cell is collected and the TX unit is idle. -/
theorem invariantHoldsAtReset : Obligations.InvariantHoldsAtReset :=
  inv_of_empty Memory.wf_nil (iff_of_true rfl rfl) rfl rfl

/-- The TX unit's part of the invariant (R27). -/
theorem exec_keeps_txInv {i : Instr} {s t : State} (hs : TxInv s) (h : exec i s = .next t) : TxInv t := by
  cases exec_effect h with
  | resultOnly _ ht | crc _ _ _ ht | rxEmptied _ _ _ ht => rw [ht]; exact hs
  | tx _ _ _ _ _ hinv ht => rw [ht]; exact hinv hs
  | rxByte d _ ht =>
    obtain ⟨_, ⟨hbusy, hremaining, _⟩, _⟩ := execRxByte_frame ht
    simpa only [TxInv, hbusy, hremaining] using hs

/-- The invariants of the RX unit and of the buffer read the RX unit only (R33). -/
theorem inv_of_sameRx {s t : State} (h : Inv s) (htx : TxInv t) (hx : t.rxState = s.rxState)
    (hc : t.rxCount = s.rxCount) (hv : t.rxFrameValid = s.rxFrameValid) (hb : t.rxBuf = s.rxBuf)
    (he : t.rxBufEpoch = s.rxBufEpoch) : Inv t := by
  obtain ⟨hbuf, hwritten, _, hrx⟩ := h
  have hcell (i : Nat) : rxCell t i = rxCell s i := rxCell_congr hb he i
  have hcells (k : Nat) : rxCells t k = rxCells s k := rxCells_congr fun i _ => hcell i
  have hexpect : rxExpect t = rxExpect s := rxExpect_congr (hcell 2) (hcell 3)
  refine ⟨hb ▸ hbuf, ?_, htx, ?_⟩
  · simpa only [CellsWritten, hb, hc] using hwritten
  · constructor <;> simp only [hx, hc, hv, hcell, hcells, hexpect]
    exacts [hrx.heldState, hrx.heldCount, hrx.heldCrc, hrx.collectFree, hrx.collectRoom, hrx.collectShort,
      hrx.seekEmpty]

theorem cellsWritten_rxAppend {d : Byte} {s : State} (hw : CellsWritten s) (hc : s.rxCount.toNat < 65543) :
    CellsWritten (rxAppend d s) := by
  intro i hi
  rw [rxAppend_rxCount_toNat d hc] at hi
  rw [rxAppend_rxBuf, Memory.read_write]
  split
  · rfl
  · exact hw i (by omega)

/-- A candidate that is still short after an append meets the invariant (R33 (b)): its end, once known, stays where it
is and has not been reached. -/
theorem inv_of_rxAppend_short {d : Byte} {s : State} (h : Inv s) (hv : s.rxFrameValid = false)
    (hs : s.rxState = .collect) (hc : s.rxCount.toNat < 65543) (hshort : rxComplete (rxAppend d s) = false) :
    Inv (rxAppend d s) := by
  have hcount := rxAppend_rxCount_toNat d hc
  have hbounds := rxExpect_bounds (rxAppend d s)
  have hlt : 4 ≤ s.rxCount.toNat + 1 → s.rxCount.toNat + 1 < rxExpect (rxAppend d s) := by
    intro h4
    have hne : s.rxCount.toNat + 1 ≠ rxExpect (rxAppend d s) := fun he =>
      absurd ((rxComplete_iff _).mpr (by rw [hcount]; exact ⟨h4, he⟩)) (by simp [hshort])
    by_cases hk : 4 ≤ s.rxCount.toNat
    · have := h.rx.collectShort hs hk
      rw [rxExpect_rxAppend d hk] at hne ⊢
      omega
    · omega
  refine ⟨Memory.wf_write _ _ d hc h.buffer, cellsWritten_rxAppend h.written hc, h.tx, ?_⟩
  constructor <;> simp only [rxAppend_rxFrameValid, rxAppend_rxState, hv, hs, hcount]
  case collectRoom => omega
  case collectShort => exact fun _ => hlt
  all_goals simp

/-- A complete candidate whose CRC fits is held with the invariant (R33 (a)). -/
theorem rxInv_of_held {s : State} {cmd seq : Byte} {p : List Byte} (hv : s.rxFrameValid = true) (hs : s.rxState = .seek1)
    (hcomplete : rxComplete s = true) (hframe : decodeOne (rxCells s s.rxCount.toNat) = .frame cmd seq p) :
    RxInv s := by
  obtain ⟨h4, hexpect⟩ := (rxComplete_iff s).mp hcomplete
  have hcrc := crc32_of_decodeOne_eq_frame hframe
  have hk : s.rxCount.toNat = 8 + (rxLength s).toNat := hexpect
  rw [candidateLength_rxCells s h4, take_rxCells s (by omega), byteAt_rxCells s (by omega), byteAt_rxCells s (by omega),
    byteAt_rxCells s (by omega), byteAt_rxCells s (by omega)] at hcrc
  refine ⟨fun _ => hs, fun _ => hexpect, fun _ => ?_, ?_, ?_, ?_, ?_⟩
  · convert hcrc using 3 <;> omega
  all_goals simp [hs, hv]

/-- RX.BYTE keeps the invariant, transition by transition (R161 to R166). -/
theorem execRxByte_keeps_inv {d : Byte} {s t : State} (h : Inv s) (htx : TxInv t) (ht : execRxByte d s = .next t) :
    Inv t := by
  obtain ⟨_, rfl⟩ | ⟨hv, hs, _, rfl⟩ | ⟨hv, hs, _, rfl⟩ | ⟨hv, _, _, rfl⟩ | ⟨hv, hs, _, rfl⟩ | ⟨hv, hs, hc, ht⟩ :=
    execRxByte_cases ht
  · exact inv_of_sameRx h htx rfl rfl rfl rfl rfl
  · exact inv_of_empty h.buffer htx hv (h.rx.seekEmpty (by simp [hs]) hv)
  · exact inv_of_sameRx h htx rfl rfl rfl rfl rfl
  · exact inv_of_empty h.buffer htx hv rfl
  · exact inv_of_empty h.buffer htx hv (h.rx.seekEmpty (by simp [hs]) hv)
  · have hbuf : Memory.wf (rxAppend d s).rxBuf = true := Memory.wf_write _ _ d hc h.buffer
    obtain ⟨hshort, rfl⟩ | ⟨hcomplete, ⟨cmd, seq, p, hframe⟩, rfl⟩ | ⟨_, rfl⟩ := ht
    · exact inv_of_sameRx (inv_of_rxAppend_short h hv hs hc hshort) htx rfl rfl rfl rfl rfl
    · exact ⟨hbuf, cellsWritten_rxAppend h.written hc, htx, rxInv_of_held rfl rfl hcomplete hframe⟩
    · exact inv_of_empty hbuf htx hv rfl

theorem exec_keeps_inv {i : Instr} {s t : State} (h : Inv s) (ht : exec i s = .next t) : Inv t := by
  have htx := exec_keeps_txInv h.tx ht
  cases exec_effect ht with
  | resultOnly _ he | crc _ _ _ he | tx _ _ _ _ _ _ he =>
    subst he
    exact inv_of_sameRx h htx rfl rfl rfl rfl rfl
  | rxEmptied _ _ _ he =>
    subst he
    exact inv_of_empty h.buffer htx rfl rfl
  | rxByte _ _ he => exact execRxByte_keeps_inv h htx he

theorem inv_withInput {s : State} (xs : List HostInput) (h : Inv s) : Inv (withInput xs s) :=
  inv_of_sameRx h h.tx rfl rfl rfl rfl rfl

/-- Settles O56: operation by operation; after reset the units are empty, and the other steps change no unit. -/
theorem everyStepKeepsTheInvariant : Obligations.EveryStepKeepsTheInvariant := by
  intro s t h ht
  cases step_effect ht with
  | idle _ he | illegal _ _ _ he =>
    subst he
    exact inv_of_sameRx h h.tx rfl rfl rfl rfl rfl
  | reset _ _ he =>
    subst he
    exact inv_of_empty Memory.wf_nil (iff_of_true rfl rfl) rfl rfl
  | operation _ rest _ _ _ he => exact exec_keeps_inv (inv_withInput rest h) he

end Sys2Proof.Machine

end

section
/-! PROOF. What the host cannot see (R26, R29): a simulation between two states that show it the same. -/

namespace Sys2Proof.Machine

/-- The second answer follows the first: if the first is a next state, so is the second, and the two look the same. -/
def AnswersAgree (a a' : Host.Outcome State Fault Refusal) : Prop :=
  ∀ t, a = .next t → ∃ t', a' = .next t' ∧ SameToHost t t'

/-- One result returned from two states that look the same. -/
theorem ret_agrees {status : Status} {data : Word} {out : List Byte} {s s' : State} (h : SameToHost s s') :
    AnswersAgree (ret status data out s) (ret status data out s') := by
  intro t ht
  obtain rfl := (ret_next_iff _ _ _ _ _).mp ht
  exact ⟨_, rfl, { h with result := rfl, txOut := congrArg (· ++ out) h.txOut }⟩

variable {s s' : State}

/-! ## The CRC unit -/

theorem execCrcInit_agrees (h : SameToHost s s') : AnswersAgree (execCrcInit s) (execCrcInit s') := by
  apply ret_agrees
  exact { h with crcAcc := rfl }

theorem execCrcByte_agrees (h : SameToHost s s') (d : Byte) :
    AnswersAgree (execCrcByte d s) (execCrcByte d s') := by
  apply ret_agrees
  exact { h with crcAcc := congrArg (crcStep · d) h.crcAcc }

theorem execCrcRead_agrees (h : SameToHost s s') : AnswersAgree (execCrcRead s) (execCrcRead s') := by
  rw [execCrcRead, h.crcAcc]
  exact ret_agrees h

/-! ## The TX unit -/

/-- The TX unit's registers set alike. -/
theorem sameToHost_setTx (h : SameToHost s s') (busy : Bool) (n : Len) {c c' : Word} (hc : busy = true → c = c') :
    SameToHost { s with txBusy := busy, txRemaining := n, txCrc := c }
      { s' with txBusy := busy, txRemaining := n, txCrc := c' } :=
  { h with txBusy := rfl, txRemaining := rfl, txCrc := hc }

/-- TX.START sets `tx_crc` without reading it (R140). -/
theorem execTxStart_agrees (h : SameToHost s s') (cmd seq : Byte) (len : Len) :
    AnswersAgree (execTxStart cmd seq len s) (execTxStart cmd seq len s') := by
  unfold execTxStart
  rw [h.txBusy]
  split
  · exact ret_agrees h
  · split
    · exact ret_agrees (sameToHost_setTx h _ _ fun _ => rfl)
    · exact ret_agrees (sameToHost_setTx h _ _ fun _ => rfl)

/-- TX.BYTE reads `tx_crc` while busy only (R141). -/
theorem execTxByte_agrees (h : SameToHost s s') (d : Byte) :
    AnswersAgree (execTxByte d s) (execTxByte d s') := by
  unfold execTxByte
  by_cases hbusy : s.txBusy = true
  · have hbusy' : s'.txBusy = true := h.txBusy ▸ hbusy
    rw [if_pos hbusy, if_pos hbusy', h.txCrc hbusy, h.txRemaining]
    dsimp only
    split
    · exact ret_agrees (sameToHost_setTx h _ _ fun _ => rfl)
    · rw [h.txBusy]
      exact ret_agrees (sameToHost_setTx h _ _ fun _ => rfl)
  · rw [if_neg hbusy, if_neg (h.txBusy ▸ hbusy)]
    exact ret_agrees h

/-- TX.ABORT leaves a `tx_crc` that may differ, and an idle unit (R142). -/
theorem execTxAbort_agrees (h : SameToHost s s') : AnswersAgree (execTxAbort s) (execTxAbort s') := by
  apply ret_agrees
  exact sameToHost_setTx h false 0#16 nofun

theorem execTxStatus_agrees (h : SameToHost s s') : AnswersAgree (execTxStatus s) (execTxStatus s') := by
  rw [execTxStatus, txStatusWord, h.txBusy, h.txRemaining]
  exact ret_agrees h

/-! ## The RX unit -/

/-- Two states that look the same still do after the synchronizer's state is set alike. -/
theorem sameToHost_setRxState (h : SameToHost s s') (x : RxState) :
    SameToHost { s with rxState := x } { s' with rxState := x } :=
  { h with rxState := rfl }

/-- With `rx_count` 0 every cell is out of the host's sight. -/
theorem sameToHost_setRxEmpty (h : SameToHost s s') (x : RxState) {v v' : Bool} (hv : v = v') :
    SameToHost { s with rxState := x, rxCount := 0#17, rxFrameValid := v }
      { s' with rxState := x, rxCount := 0#17, rxFrameValid := v' } :=
  { h with rxState := rfl, rxCount := rfl, rxFrameValid := hv, cells := fun i hi => absurd hi (Nat.not_lt_zero i) }

theorem execRxReset_agrees (h : SameToHost s s') : AnswersAgree (execRxReset s) (execRxReset s') := by
  apply ret_agrees
  exact sameToHost_setRxEmpty h .seek1 rfl

theorem execRxRelease_agrees (h : SameToHost s s') : AnswersAgree (execRxRelease s) (execRxRelease s') := by
  apply ret_agrees
  rw [h.rxFrameValid]
  split
  · rw [h.rxState]
    exact sameToHost_setRxEmpty h s'.rxState rfl
  · exact h

theorem execRxStatus_agrees (h : SameToHost s s') : AnswersAgree (execRxStatus s) (execRxStatus s') := by
  rw [execRxStatus, rxStatusWord, h.rxState, h.rxFrameValid, h.rxCount]
  exact ret_agrees h

/-- A held frame has its eight bytes of header and CRC below `rx_count` (R33 (a)). -/
theorem rxCell_eq_of_held (hs : Inv s) (h : SameToHost s s') (hv : s.rxFrameValid = true) {i : Nat}
    (hi : i < 8 + (rxLength s).toNat) : rxCell s i = rxCell s' i :=
  h.cells i ((hs.rx.heldCount hv).symm ▸ hi)

theorem execRxReadhdr_agrees (hs : Inv s) (h : SameToHost s s') :
    AnswersAgree (execRxReadhdr s) (execRxReadhdr s') := by
  unfold execRxReadhdr
  by_cases hv : s.rxFrameValid = true
  · have hcell {i : Nat} (hi : i < 8) : rxCell s i = rxCell s' i := rxCell_eq_of_held hs h hv (by omega)
    rw [if_pos hv, if_pos (h.rxFrameValid ▸ hv), hcell (by decide : 0 < 8), hcell (by decide : 1 < 8),
      hcell (by decide : 2 < 8), hcell (by decide : 3 < 8)]
    exact ret_agrees h
  · rw [if_neg hv, if_neg (h.rxFrameValid ▸ hv)]
    exact ret_agrees h

theorem execRxPeek_agrees (hs : Inv s) (h : SameToHost s s') (idx : Len) :
    AnswersAgree (execRxPeek idx s) (execRxPeek idx s') := by
  unfold execRxPeek
  by_cases hv : s.rxFrameValid = true
  · have hlen : rxLength s' = rxLength s := by
      rw [rxLength, rxLength, rxCell_eq_of_held hs h hv (i := 2) (by omega),
        rxCell_eq_of_held hs h hv (i := 3) (by omega)]
    have hv' : s'.rxFrameValid = true := h.rxFrameValid ▸ hv
    rw [if_pos hv, if_pos hv', hlen]
    split
    · rw [rxCell_eq_of_held hs h hv (i := 4 + idx.toNat) (by omega)]
      exact ret_agrees h
    · exact ret_agrees h
  · rw [if_neg hv, if_neg (h.rxFrameValid ▸ hv)]
    exact ret_agrees h

theorem sameToHost_rxAppend (h : SameToHost s s') (d : Byte) (hc : s.rxCount.toNat < 65543) :
    SameToHost (rxAppend d s) (rxAppend d s') := by
  refine { h with rxCount := congrArg (· + 1#17) h.rxCount, cells := fun i hi => ?_ }
  rw [rxAppend_rxCount_toNat d hc] at hi
  rw [rxCell_rxAppend, rxCell_rxAppend, ← h.rxCount]
  split
  · rfl
  · exact h.cells i (by omega)

/-- The completion check reads the length bytes once they are below `rx_count` (R164). -/
theorem rxComplete_eq (h : SameToHost s s') : rxComplete s = rxComplete s' := by
  rw [Bool.eq_iff_iff, rxComplete_iff, rxComplete_iff, ← h.rxCount]
  refine and_congr_right fun h4 => ?_
  rw [rxExpect_congr (h.cells 2 (by omega)) (h.cells 3 (by omega))]

theorem rxCheck_agrees (h : SameToHost s s') : AnswersAgree (rxCheck s) (rxCheck s') := by
  have hcells : rxCells s s.rxCount.toNat = rxCells s' s'.rxCount.toNat := h.rxCount ▸ rxCells_congr h.cells
  unfold rxCheck
  rw [rxComplete_eq h, hcells]
  split
  · split
    · apply ret_agrees
      exact { h with rxState := rfl, rxFrameValid := rfl }
    · apply ret_agrees
      exact sameToHost_setRxEmpty h .seek1 h.rxFrameValid
  · exact ret_agrees h

theorem execRxByte_agrees (h : SameToHost s s') (d : Byte) : AnswersAgree (execRxByte d s) (execRxByte d s') := by
  unfold execRxByte
  rw [h.rxFrameValid, h.rxState]
  split
  · exact ret_agrees h
  · split
    · unfold rxSeek1
      split
      · exact ret_agrees (sameToHost_setRxState h .seek2)
      · exact ret_agrees h
    · unfold rxSeek2
      split
      · exact ret_agrees (sameToHost_setRxEmpty h .collect h.rxFrameValid)
      · exact ret_agrees (sameToHost_setRxState h .seek1)
    · unfold rxCollect
      rw [← h.rxCount]
      split
      · next hc => exact rxCheck_agrees (sameToHost_rxAppend h d hc)
      · exact nofun

/-! ## The step -/

theorem exec_agrees (hs : Inv s) (h : SameToHost s s') (i : Instr) : AnswersAgree (exec i s) (exec i s') := by
  cases i with
  | nop => exact ret_agrees h
  | crcInit => exact execCrcInit_agrees h
  | crcByte d => exact execCrcByte_agrees h d
  | crcRead => exact execCrcRead_agrees h
  | rxReset => exact execRxReset_agrees h
  | rxByte d => exact execRxByte_agrees h d
  | rxRelease => exact execRxRelease_agrees h
  | rxReadhdr => exact execRxReadhdr_agrees hs h
  | rxPeek idx => exact execRxPeek_agrees hs h idx
  | rxStatus => exact execRxStatus_agrees h
  | txStart cmd seq len => exact execTxStart_agrees h cmd seq len
  | txByte d => exact execTxByte_agrees h d
  | txAbort => exact execTxAbort_agrees h
  | txStatus => exact execTxStatus_agrees h

theorem sameToHost_withInput (h : SameToHost s s') (xs : List HostInput) :
    SameToHost (withInput xs s) (withInput xs s') :=
  { h with input := rfl }

/-- The reset input empties both buffers and sets both `tx_crc`; the draws behind them may differ (R240, log 1). -/
theorem resetInput_agrees (h : SameToHost s s') : AnswersAgree (resetInput s) (resetInput s') := by
  intro t ht
  cases ht
  exact ⟨_, rfl, rfl, rfl, rfl, fun _ => rfl, rfl, rfl, rfl, fun i hi => absurd hi (Nat.not_lt_zero i), h.input, rfl,
    h.txOut⟩

theorem step_agrees (hs : Inv s) (h : SameToHost s s') : AnswersAgree (step s) (step s') := by
  unfold step
  rw [← h.input]
  split
  · intro t ht
    cases ht
    exact ⟨_, rfl, { h with result := rfl }⟩
  · exact resetInput_agrees (sameToHost_withInput h _)
  · split
    · exact exec_agrees (inv_withInput _ hs) (sameToHost_withInput h _) _
    · exact ret_agrees (sameToHost_withInput h _)

/-- Settles O59: operation by operation; a read looks at a held frame only, all of it below `rx_count`. -/
theorem unspecifiedStateIsUnobservable : Obligations.UnspecifiedStateIsUnobservable :=
  fun _ _ t hs _ h ht => step_agrees hs h t ht

end Sys2Proof.Machine

end

section
/-! PROOF. The units share nothing (R61), and the output queue keeps what it is given (R62): an operation reads and
writes its own unit only, so it does the same in any state that has this unit. -/

namespace Sys2Proof.Machine

/-! ## One unit of a state -/

/-- The state `o` with the state of the unit `u` taken from `s` (R61). -/
def withUnit (u : CfeUnit) (s o : State) : State :=
  match u with
  | .none => o
  | .crc => { o with crcAcc := s.crcAcc }
  | .tx => { o with txBusy := s.txBusy, txRemaining := s.txRemaining, txCrc := s.txCrc }
  | .rx => { o with
      rxState := s.rxState, rxCount := s.rxCount, rxFrameValid := s.rxFrameValid, rxBuf := s.rxBuf,
      rxBufEpoch := s.rxBufEpoch }

section
variable {u v : CfeUnit} (s o : State)

@[simp] theorem withUnit_self (u : CfeUnit) : withUnit u s s = s := by
  cases u <;> rfl

@[simp] theorem withUnit_txOut (u : CfeUnit) : (withUnit u s o).txOut = o.txOut := by
  cases u <;> rfl

/-! What a unit's operations read of it. -/

@[simp] theorem withUnit_tx_txBusy : (withUnit .tx s o).txBusy = s.txBusy := rfl
@[simp] theorem withUnit_tx_txRemaining : (withUnit .tx s o).txRemaining = s.txRemaining := rfl
@[simp] theorem withUnit_rx_rxState : (withUnit .rx s o).rxState = s.rxState := rfl
@[simp] theorem withUnit_rx_rxCount : (withUnit .rx s o).rxCount = s.rxCount := rfl
@[simp] theorem withUnit_rx_rxFrameValid : (withUnit .rx s o).rxFrameValid = s.rxFrameValid := rfl
@[simp] theorem rxCells_withUnit_rx (k : Nat) : rxCells (withUnit .rx s o) k = rxCells s k := rfl
@[simp] theorem rxLength_withUnit_rx : rxLength (withUnit .rx s o) = rxLength s := rfl
@[simp] theorem rxComplete_withUnit_rx : rxComplete (withUnit .rx s o) = rxComplete s := rfl

/-- A result belongs to no unit (R38). -/
theorem withUnit_withResult_left (u : CfeUnit) (r : OpResult) : withUnit u (withResult r s) o = withUnit u s o := by
  cases u <;> rfl

theorem withUnit_withResult_right (u : CfeUnit) (r : OpResult) :
    withUnit u s (withResult r o) = withResult r (withUnit u s o) := by
  cases u <;> rfl

/-- Different units have no field in common. -/
theorem withUnit_comm (h : u ≠ v) (s₁ s₂ : State) :
    withUnit u s₁ (withUnit v s₂ o) = withUnit v s₂ (withUnit u s₁ o) := by
  revert h
  cases u <;> cases v <;> simp [withUnit]

theorem sameCrcUnit_withUnit (h : u ≠ .crc) : SameCrcUnit o (withUnit u s o) := by
  cases u with
  | crc => exact absurd rfl h
  | none | tx | rx => exact rfl

theorem sameTxUnit_withUnit (h : u ≠ .tx) : SameTxUnit o (withUnit u s o) := by
  cases u with
  | tx => exact absurd rfl h
  | none | crc | rx => exact ⟨rfl, rfl, rfl⟩

theorem sameRxUnit_withUnit (h : u ≠ .rx) : SameRxUnit o (withUnit u s o) := by
  cases u with
  | rx => exact absurd rfl h
  | none | crc | tx => exact ⟨rfl, rfl, rfl, fun _ => rfl⟩

end

/-! ## An operation acts on its unit -/

/-- What an operation of a unit may emit: only a TX operation emits bytes, and at most ten (R62, R89). -/
def MayEmit (u : CfeUnit) (out : List Byte) : Prop :=
  (u ≠ .tx → out = []) ∧ out.length ≤ 10

theorem mayEmit_nil (u : CfeUnit) : MayEmit u [] :=
  ⟨fun _ => rfl, Nat.zero_le _⟩

theorem mayEmit_tx {out : List Byte} (h : out.length ≤ 10) : MayEmit .tx out :=
  ⟨fun hu => absurd rfl hu, h⟩

/-- Of two different units one emits nothing. -/
theorem MayEmit.append_comm {u v : CfeUnit} {out out' : List Byte} (huv : u ≠ v) (h : MayEmit u out)
    (h' : MayEmit v out') : out ++ out' = out' ++ out := by
  by_cases hu : u = .tx
  · simp [h'.1 fun hv => huv (hu.trans hv.symm)]
  · simp [h.1 hu]

/-- `a` and `a'` are the answers of an operation to a state `s` and to `o` with the unit `u` of `s`: if `a` is a next
state, so is `a'`, with the same result and the same unit `u`, the result's bytes at the end of the queue of `o`, and
everything else as in `o`. -/
def ActsOnUnit (u : CfeUnit) (o : State) (a a' : Host.Outcome State Fault Refusal) : Prop :=
  ∀ t, a = .next t → ∃ r, MayEmit u r.out ∧ t.result = some r ∧ a' = .next (withResult r (withUnit u t o))

theorem ret_actsOnUnit {u : CfeUnit} {s o : State} {status : Status} {data : Word} {out : List Byte}
    (h : MayEmit u out) : ActsOnUnit u o (ret status data out s) (ret status data out (withUnit u s o)) := by
  intro t ht
  obtain rfl := (ret_next_iff _ _ _ _ _).mp ht
  exact ⟨_, h, rfl, by rw [withUnit_withResult_left]; rfl⟩

section
variable (s o : State)

theorem execTxStart_actsOnUnit (cmd seq : Byte) (len : Len) :
    ActsOnUnit .tx o (execTxStart cmd seq len s) (execTxStart cmd seq len (withUnit .tx s o)) := by
  unfold execTxStart
  rw [withUnit_tx_txBusy]
  split
  · exact ret_actsOnUnit (mayEmit_nil _)
  · split
    · exact ret_actsOnUnit (mayEmit_tx (by simp [markerBytes, headerBytes, bytesLE32]))
    · exact ret_actsOnUnit (mayEmit_tx (by simp [markerBytes, headerBytes]))

theorem execTxByte_actsOnUnit (d : Byte) :
    ActsOnUnit .tx o (execTxByte d s) (execTxByte d (withUnit .tx s o)) := by
  unfold execTxByte
  rw [withUnit_tx_txBusy, withUnit_tx_txRemaining]
  split
  · dsimp only
    split
    · exact ret_actsOnUnit (mayEmit_tx (by simp [bytesLE32]))
    · exact ret_actsOnUnit (mayEmit_tx (by simp))
  · exact ret_actsOnUnit (mayEmit_nil _)

theorem execRxReadhdr_actsOnUnit :
    ActsOnUnit .rx o (execRxReadhdr s) (execRxReadhdr (withUnit .rx s o)) := by
  unfold execRxReadhdr
  rw [withUnit_rx_rxFrameValid]
  split <;> exact ret_actsOnUnit (mayEmit_nil _)

theorem execRxPeek_actsOnUnit (idx : Len) :
    ActsOnUnit .rx o (execRxPeek idx s) (execRxPeek idx (withUnit .rx s o)) := by
  unfold execRxPeek
  rw [withUnit_rx_rxFrameValid, rxLength_withUnit_rx]
  split
  · split <;> exact ret_actsOnUnit (mayEmit_nil _)
  · exact ret_actsOnUnit (mayEmit_nil _)

theorem execRxRelease_actsOnUnit :
    ActsOnUnit .rx o (execRxRelease s) (execRxRelease (withUnit .rx s o)) := by
  unfold execRxRelease
  rw [withUnit_rx_rxFrameValid]
  split <;> exact ret_actsOnUnit (mayEmit_nil _)

/-- The completion check reads the counter and the cells (R164). -/
theorem rxCheck_actsOnUnit : ActsOnUnit .rx o (rxCheck s) (rxCheck (withUnit .rx s o)) := by
  unfold rxCheck
  rw [rxComplete_withUnit_rx, withUnit_rx_rxCount, rxCells_withUnit_rx]
  split
  · split <;> exact ret_actsOnUnit (mayEmit_nil _)
  · exact ret_actsOnUnit (mayEmit_nil _)

/-- RX.BYTE, state by state of the synchronizer (R161 to R163). -/
theorem execRxByte_actsOnUnit (d : Byte) :
    ActsOnUnit .rx o (execRxByte d s) (execRxByte d (withUnit .rx s o)) := by
  unfold execRxByte
  rw [withUnit_rx_rxFrameValid, withUnit_rx_rxState]
  split
  · exact ret_actsOnUnit (mayEmit_nil _)
  · split
    · unfold rxSeek1
      split <;> exact ret_actsOnUnit (mayEmit_nil _)
    · unfold rxSeek2
      split <;> exact ret_actsOnUnit (mayEmit_nil _)
    · unfold rxCollect
      rw [withUnit_rx_rxCount]
      split
      · exact rxCheck_actsOnUnit (rxAppend d s) o
      · exact nofun

/-- Every operation reads and writes its own unit only, and emits at most ten bytes, none unless it is a TX operation
(R61, R62, R89). -/
theorem exec_actsOnUnit (i : Instr) :
    ActsOnUnit i.cfeUnit o (exec i s) (exec i (withUnit i.cfeUnit s o)) := by
  cases i with
  | txStart cmd seq len => exact execTxStart_actsOnUnit s o cmd seq len
  | txByte d => exact execTxByte_actsOnUnit s o d
  | rxByte d => exact execRxByte_actsOnUnit s o d
  | rxReadhdr => exact execRxReadhdr_actsOnUnit s o
  | rxPeek idx => exact execRxPeek_actsOnUnit s o idx
  | rxRelease => exact execRxRelease_actsOnUnit s o
  | nop | crcInit | crcByte | crcRead | rxReset | rxStatus | txAbort | txStatus =>
    exact ret_actsOnUnit (mayEmit_nil _)

end

/-! ## The frame of an operation, and two operations of different units -/

/-- An operation changes its unit, the result and the output queue, and nothing else (R61, R62). -/
theorem exec_changes_unit_only {i : Instr} {s t : State} (h : exec i s = .next t) :
    ∃ r, MayEmit i.cfeUnit r.out ∧ t.result = some r ∧ t = withResult r (withUnit i.cfeUnit t s) := by
  obtain ⟨r, hout, hr, hs⟩ := exec_actsOnUnit s s i t h
  rw [withUnit_self, h] at hs
  exact ⟨r, hout, hr, Host.Outcome.next.inj hs⟩

/-- After an operation of another unit, an operation returns what it returns without it, and leaves its unit as it
does without it (R61). -/
theorem exec_after_other_unit {i j : Instr} {s a a' : State} {r : OpResult} (hij : i.cfeUnit ≠ j.cfeUnit)
    (hi : exec i s = .next a) (hj : exec j s = .next a') (hr : a'.result = some r) :
    exec j a = .next (withResult r (withUnit j.cfeUnit a' a)) := by
  obtain ⟨ri, _, _, ha⟩ := exec_changes_unit_only hi
  have hkept : withUnit j.cfeUnit s a = a := by
    rw [ha, withUnit_withResult_right, withUnit_comm _ hij.symm, withUnit_self]
  obtain ⟨r', _, hr', hnext⟩ := exec_actsOnUnit s a j a' hj
  obtain rfl := Option.some.inj (hr.symm.trans hr')
  rwa [hkept] at hnext

/-- Two operations of different units lead in either order to the same state `c` but for the order in which their
results come, and of these one emits nothing. -/
theorem exec_commutes {i j : Instr} {s a a' : State} (hij : i.cfeUnit ≠ j.cfeUnit) (hi : exec i s = .next a)
    (hj : exec j s = .next a') :
    ∃ c ri rj, a.result = some ri ∧ a'.result = some rj ∧ ri.out ++ rj.out = rj.out ++ ri.out ∧
      exec j a = .next (withResult rj (withResult ri c)) ∧ exec i a' = .next (withResult ri (withResult rj c)) := by
  obtain ⟨ri, houti, hri, ha⟩ := exec_changes_unit_only hi
  obtain ⟨rj, houtj, hrj, ha'⟩ := exec_changes_unit_only hj
  have hboth : withUnit j.cfeUnit a' a = withResult ri (withUnit j.cfeUnit a' (withUnit i.cfeUnit a s)) :=
    (congrArg (withUnit j.cfeUnit a') ha).trans (withUnit_withResult_right _ _ _ _)
  have hboth' : withUnit i.cfeUnit a a' = withResult rj (withUnit j.cfeUnit a' (withUnit i.cfeUnit a s)) := by
    rw [← withUnit_comm _ hij]
    exact (congrArg (withUnit i.cfeUnit a) ha').trans (withUnit_withResult_right _ _ _ _)
  exact ⟨_, ri, rj, hri, hrj, houti.append_comm hij houtj,
    hboth ▸ exec_after_other_unit hij hi hj hrj, hboth' ▸ exec_after_other_unit hij.symm hj hi hri⟩

/-- Settles O50: an operation acts on the fields of its unit only, and different units have no field in common. -/
theorem unitsAreDisjointAndCommute : Obligations.UnitsAreDisjointAndCommute := by
  constructor
  · intro i s t h
    obtain ⟨r, hout, _, ht⟩ := exec_changes_unit_only h
    rw [ht]
    refine ⟨sameCrcUnit_withUnit t s, fun hu => ⟨sameTxUnit_withUnit t s hu, ?_⟩, sameRxUnit_withUnit t s⟩
    rw [withResult_txOut, withUnit_txOut, hout.1 hu, List.append_nil]
  · intro i j s a a' hij hi hj
    obtain ⟨c, ri, rj, hri, hrj, hout, hb, hb'⟩ := exec_commutes hij hi hj
    refine ⟨_, _, hb, hb', ⟨rfl, ⟨rfl, rfl, rfl⟩, rfl, rfl, rfl, fun _ => rfl⟩, hri, hrj, ?_⟩
    simp only [withResult_txOut, List.append_assoc, hout]

/-! ## The output queue (R62) -/

/-- An operation's `out` bytes, at most ten, go to the end of the queue (R62, R89). -/
theorem exec_txOut {i : Instr} {s t : State} (h : exec i s = .next t) :
    ∃ r, t.result = some r ∧ t.txOut = s.txOut ++ r.out ∧ r.out.length ≤ 10 := by
  obtain ⟨r, ⟨_, hlength⟩, hr, ht⟩ := exec_changes_unit_only h
  refine ⟨r, hr, ?_, hlength⟩
  rw [ht, withResult_txOut, withUnit_txOut]

/-- Settles O53: an operation adds its `out` bytes; an idle step, the reset input and an illegal word emit nothing. -/
theorem outputQueueKeepsOrder : Obligations.OutputQueueKeepsOrder := by
  intro s t h
  cases step_effect h with
  | idle _ ht | reset _ _ ht =>
    subst ht
    exact ⟨(List.append_nil _).symm, nofun⟩
  | illegal _ _ _ ht =>
    subst ht
    exact ⟨rfl, fun r hr => Option.some.inj hr ▸ Nat.zero_le 10⟩
  | operation _ _ _ _ _ ht =>
    obtain ⟨r, hr, hqueue, hlength⟩ := exec_txOut ht
    rw [hr]
    exact ⟨hqueue, fun r' hr' => Option.some.inj hr' ▸ hlength⟩

end Sys2Proof.Machine

end

section
/-! PROOF. The statements about the encoding (spec/30_encoding.md): the words of the operations (R80 to R84, R88), the
source lines of the assembler (R86, R87), the wire frame (R70 to R72) and the ACK check (R92). -/

namespace Sys2Proof

/-! ## The decoder in one equation: `op` selects the operation, then the format's zero bits are checked (R82, R83) -/

/-- The operation with its operands read anew from an operand word, as its format lays them out (R81). -/
def Instr.withOperand : Instr → Word → Instr
  | .crcByte _, x => .crcByte (x.extractLsb' 0 8)
  | .rxByte _, x => .rxByte (x.extractLsb' 0 8)
  | .txByte _, x => .txByte (x.extractLsb' 0 8)
  | .rxPeek _, x => .rxPeek (x.extractLsb' 0 16)
  | .txStart _ _ _, x => .txStart (x.extractLsb' 0 8) (x.extractLsb' 8 8) (x.extractLsb' 16 16)
  | i, _ => i

@[simp] theorem Instr.mnemonic_withOperand (i : Instr) (x : Word) : (i.withOperand x).mnemonic = i.mnemonic := by
  cases i <;> rfl

/-- A mask of the bits from `n` up tests that the field of these bits is 0. -/
theorem and_mask_eq_zero_iff {x mask : Word} {n m : Nat} (hm : n + m = 32)
    (hmask : ∀ k, k < 32 → mask.getLsbD k = decide (n ≤ k)) : x &&& mask = 0#32 ↔ x.extractLsb' n m = 0#m := by
  constructor <;> intro h <;> apply BitVec.eq_of_getLsbD_eq <;> intro k hk
  · have hbit := congrArg (BitVec.getLsbD · (n + k)) h
    simpa [hk, hmask (n + k) (by omega)] using hbit
  · by_cases hn : n ≤ k
    · have hbit : x.getLsbD k = false := by
        simpa [show k - n < m by omega, show n + (k - n) = k by omega] using congrArg (BitVec.getLsbD · (k - n)) h
      simp [hbit]
    · simp [BitVec.getLsbD_and, hmask k hk, hn]

theorem and_reservedMask_n {x : Word} : x &&& Format.n.reservedMask = 0#32 ↔ x = 0#32 := by
  rw [show Format.n.reservedMask = BitVec.allOnes 32 from rfl, BitVec.and_allOnes]

theorem and_reservedMask_b {x : Word} : x &&& Format.b.reservedMask = 0#32 ↔ x.extractLsb' 8 24 = 0#24 :=
  and_mask_eq_zero_iff rfl (by decide)

theorem and_reservedMask_i {x : Word} : x &&& Format.i.reservedMask = 0#32 ↔ x.extractLsb' 16 16 = 0#16 :=
  and_mask_eq_zero_iff rfl (by decide)

/-- What the decoder answers for a word whose `op` is the operation's (R82, R83). -/
theorem decode_of_opField {w : OpWord} {i : Instr} (h : opField w = i.opcode) :
    decode w = if operandField w &&& i.format.reservedMask = 0#32 then .ok (i.withOperand (operandField w))
      else .error .reservedOperandBit := by
  unfold decode
  rw [h]
  cases i with
  | nop | crcInit | crcRead | rxReset | rxRelease | rxReadhdr | rxStatus | txAbort | txStatus =>
    exact if_congr and_reservedMask_n.symm rfl rfl
  | crcByte | rxByte | txByte => exact if_congr and_reservedMask_b.symm rfl rfl
  | rxPeek => exact if_congr and_reservedMask_i.symm rfl rfl
  | txStart => exact (if_pos (Laws.EncodedFields.operandH_reserved _)).symm

/-! ## Decoding an operation's word (R80 to R82) -/

/-- An operation's operand has a 0 in every reserved bit (R83). -/
theorem Instr.operand_reserved (i : Instr) : i.operand &&& i.format.reservedMask = 0#32 := by
  cases i with
  | nop | crcInit | crcRead | rxReset | rxRelease | rxReadhdr | rxStatus | txAbort | txStatus => exact BitVec.zero_and
  | crcByte | rxByte | txByte => exact Laws.EncodedFields.operandB_reserved _
  | rxPeek => exact Laws.EncodedFields.operandI_reserved _
  | txStart => exact Laws.EncodedFields.operandH_reserved _

theorem operandB_low (d : Byte) : (operandB d).extractLsb' 0 8 = d := by
  apply BitVec.eq_of_getLsbD_eq
  intro k hk
  simp [operandB, hk, show k < 32 by omega]

theorem operandI_low (idx : Len) : (operandI idx).extractLsb' 0 16 = idx := by
  apply BitVec.eq_of_getLsbD_eq
  intro k hk
  simp [operandI, hk, show k < 32 by omega]

theorem operandH_cmd (cmd seq : Byte) (len : Len) : (operandH cmd seq len).extractLsb' 0 8 = cmd :=
  BitVec.extractLsb'_append_eq_right

theorem operandH_seq (cmd seq : Byte) (len : Len) : (operandH cmd seq len).extractLsb' 8 8 = seq := by
  apply BitVec.eq_of_getLsbD_eq
  intro k hk
  simp [operandH_getLsbD, hk, show 8 + k < 16 by omega]

theorem operandH_len (cmd seq : Byte) (len : Len) : (operandH cmd seq len).extractLsb' 16 16 = len := by
  apply BitVec.eq_of_getLsbD_eq
  intro k hk
  simp [operandH_getLsbD, hk, show ¬ 16 + k < 8 by omega]

/-- The operands of an operation are read back from its own operand word (R81). -/
theorem Instr.withOperand_operand (i : Instr) : i.withOperand i.operand = i := by
  cases i with
  | nop | crcInit | crcRead | rxReset | rxRelease | rxReadhdr | rxStatus | txAbort | txStatus => rfl
  | crcByte d => exact congrArg Instr.crcByte (operandB_low d)
  | rxByte d => exact congrArg Instr.rxByte (operandB_low d)
  | txByte d => exact congrArg Instr.txByte (operandB_low d)
  | rxPeek idx => exact congrArg Instr.rxPeek (operandI_low idx)
  | txStart cmd seq len =>
    simp only [Instr.withOperand, Instr.operand, operandH_cmd, operandH_seq, operandH_len]

@[simp] theorem opField_encode (i : Instr) : opField (encode i) = i.opcode := Laws.EncodedFields.opField_opWord _ _

@[simp] theorem operandField_encode (i : Instr) : operandField (encode i) = i.operand :=
  Laws.EncodedFields.operandField_opWord _ _

@[simp] theorem decode_encode (i : Instr) : decode (encode i) = .ok i := by
  rw [decode_of_opField (opField_encode i), operandField_encode, if_pos i.operand_reserved, i.withOperand_operand]

/-- Settles O4: `op` selects the operation, no reserved bit is set, and the fields hold the operands. -/
theorem decodeInvertsEncode : Obligations.DecodeInvertsEncode :=
  decode_encode

/-- Settles O5: a word that decodes has the two fields of the operation's word. -/
theorem encodeInvertsDecode : Obligations.EncodeInvertsDecode :=
  fun _ _ => Machine.encode_of_decode

/-- Settles O3: the decoder evaluates on each word. -/
theorem specWordsDecodeAsPrinted : Obligations.SpecWordsDecodeAsPrinted := by
  unfold Obligations.SpecWordsDecodeAsPrinted
  decide

/-! ## The pattern table (R88) -/

/-- One operation for each `op` of R82, in the order of the map. -/
def opMap : List Instr :=
  [.nop, .crcInit, .crcByte 0#8, .crcRead, .rxReset, .rxByte 0#8, .rxRelease, .rxReadhdr, .rxPeek 0#16, .rxStatus,
   .txStart 0#8 0#8 0#16, .txByte 0#8, .txAbort, .txStatus]

/-- The pattern of an operation: its `op` and a 0 in each reserved bit must match (R82, R83). -/
def Instr.row (i : Instr) : OpRow :=
  ⟨i.mnemonic, opWord i.opcode 0#32, opWord 0xFF#8 i.format.reservedMask⟩

theorem opRows_eq : opRows = opMap.map Instr.row := by decide

theorem Instr.row_mem_opRows (i : Instr) : i.row ∈ opRows := by
  rw [opRows_eq]
  refine List.mem_map.mpr ⟨i.withOperand 0#32, ?_, by cases i <;> rfl⟩
  cases i <;> simp [opMap, Instr.withOperand]

theorem opWord_inj {op op' : Byte} {x x' : Word} : opWord op x = opWord op' x' ↔ op = op' ∧ x = x' := by
  constructor
  · intro h
    have hop := congrArg opField h
    have hx := congrArg operandField h
    simp only [Laws.EncodedFields.opField_opWord, Laws.EncodedFields.operandField_opWord] at hop hx
    exact ⟨hop, hx⟩
  · rintro ⟨rfl, rfl⟩
    rfl

/-- A row selects the words with its `op` that have a 0 in each reserved bit (R88). -/
theorem Instr.row_selects_iff {i : Instr} {w : OpWord} :
    i.row.selects w = true ↔ opField w = i.opcode ∧ operandField w &&& i.format.reservedMask = 0#32 := by
  have hand : w &&& i.row.mask = opWord (opField w &&& 0xFF#8) (operandField w &&& i.format.reservedMask) := by
    conv_lhs => rw [← opWord_fields w]
    exact BitVec.and_append
  rw [OpRow.selects, decide_eq_true_iff, hand, show i.row.matchBits = opWord i.opcode 0#32 from rfl, opWord_inj,
    show opField w &&& 0xFF#8 = opField w from BitVec.and_allOnes]

theorem opField_of_selects {r : OpRow} {w : OpWord} (hr : r ∈ opRows) (h : r.selects w = true) :
    opField r.matchBits = opField w := by
  rw [opRows_eq] at hr
  obtain ⟨i, _, rfl⟩ := List.mem_map.mp hr
  rw [(Instr.row_selects_iff.mp h).1]
  exact Laws.EncodedFields.opField_opWord _ _

/-- At most one row matches: the rows' `op` bytes are distinct, and every mask covers them (R88). -/
theorem length_selecting_rows_le_one (w : OpWord) : (opRows.filter (fun r => r.selects w)).length ≤ 1 := by
  have hdistinct : (opRows.map (fun r => opField r.matchBits)).Nodup := by decide
  have hnodup := hdistinct.sublist (List.Sublist.map _ (List.filter_sublist (p := fun r => r.selects w)))
  have hsame : (opRows.filter (fun r => r.selects w)).map (fun r => opField r.matchBits) =
      List.replicate (opRows.filter (fun r => r.selects w)).length (opField w) :=
    List.map_eq_replicate_iff.mpr fun r hr => opField_of_selects (List.mem_filter.mp hr).1 (List.mem_filter.mp hr).2
  exact List.nodup_replicate.mp (hsame ▸ hnodup)

/-- Settles O6: each row is the pattern of an operation, and the decoder makes the same two tests. -/
theorem oneTableRowPerLegalWord : Obligations.OneTableRowPerLegalWord := by
  intro w
  refine ⟨length_selecting_rows_le_one w, fun i hi => ?_, fun r hr hsel => ?_⟩
  · obtain rfl := Machine.encode_of_decode hi
    refine ⟨i.row, i.row_mem_opRows, Instr.row_selects_iff.mpr ⟨opField_encode i, ?_⟩, rfl⟩
    rw [operandField_encode, i.operand_reserved]
  · rw [opRows_eq] at hr
    obtain ⟨i, _, rfl⟩ := List.mem_map.mp hr
    obtain ⟨hop, hreserved⟩ := Instr.row_selects_iff.mp hsel
    exact ⟨_, (decode_of_opField hop).trans (if_pos hreserved), i.mnemonic_withOperand _⟩

end Sys2Proof

namespace Sys2Proof.Machine

/-! ## Illegal words (R83, R84, R201) -/

/-- A word that does not decode returns ILLEGAL with no effect (R201). -/
theorem step_of_decode_error {s : State} {w : OpWord} {rest : List HostInput} {e : IllegalCause}
    (hin : s.input = .word w :: rest) (hw : decode w = .error e) :
    step s = .next { s with input := rest, result := some ⟨.illegal, 0#32, []⟩ } := by
  unfold step
  rw [hin]
  simp only [hw]
  exact raise_eq _ _

/-- Each `op` listed for a format is the one of an operation with that format (R81, R82). -/
theorem exists_instr_of_mem_formatOps {ops : List Byte} {f : Format} {op : Byte}
    (hops : (opMap.filter (fun i => i.format = f)).map Instr.opcode = ops) (h : op ∈ ops) :
    ∃ i : Instr, op = i.opcode ∧ i.format = f := by
  subst hops
  obtain ⟨i, hi, rfl⟩ := List.mem_map.mp h
  exact ⟨i, rfl, of_decide_eq_true (List.mem_filter.mp hi).2⟩

/-- Settles O7: the decoder's check of the zero bits fails; format H has none. -/
theorem reservedOperandBitsAreIllegal : Obligations.ReservedOperandBitsAreIllegal := by
  constructor
  · intro s w rest hin hw
    have hbit : ∃ i : Instr, opField w = i.opcode ∧ operandField w &&& i.format.reservedMask ≠ 0#32 := by
      rcases hw with ⟨hop, hx⟩ | ⟨hop, hx⟩ | ⟨hop, hx⟩
      · obtain ⟨i, hi, hf⟩ := exists_instr_of_mem_formatOps (f := .n) (by decide) hop
        exact ⟨i, hi, hf ▸ mt and_reservedMask_n.mp hx⟩
      · obtain ⟨i, hi, hf⟩ := exists_instr_of_mem_formatOps (f := .b) (by decide) hop
        exact ⟨i, hi, hf ▸ mt and_reservedMask_b.mp hx⟩
      · obtain ⟨i, hi, hf⟩ := exists_instr_of_mem_formatOps (f := .i) (by decide) hop
        exact ⟨i, hi, hf ▸ mt and_reservedMask_i.mp hx⟩
    obtain ⟨i, hi, hset⟩ := hbit
    have herror := (decode_of_opField hi).trans (if_neg hset)
    exact ⟨herror, step_of_decode_error hin herror⟩
  · intro w hop
    obtain ⟨i, hi, hf⟩ := exists_instr_of_mem_formatOps (f := .h) (by decide) hop
    exact ⟨_, (decode_of_opField hi).trans (if_pos (hf ▸ Laws.EncodedFields.operandH_reserved _))⟩

/-- The operation codes of the map (R82). -/
abbrev assignedOps : List Byte := formatNOps ++ formatBOps ++ formatIOps ++ formatHOps

/-- An `op` outside the map reaches the decoder's last arm (R84). -/
theorem decode_of_unassigned {w : OpWord} (h : opField w ∉ assignedOps) : decode w = .error .unassignedOp := by
  have hnat : (opField w).toNat ∉ assignedOps.map BitVec.toNat := fun hmem => by
    obtain ⟨op, hop, heq⟩ := List.mem_map.mp hmem
    exact h (BitVec.eq_of_toNat_eq heq ▸ hop)
  unfold decode
  split
  case h_15 => rfl
  all_goals next hop => exact absurd (hop ▸ by decide) hnat

/-- The map leaves the ranges of R84. -/
theorem not_mem_assignedOps_iff (op : Byte) : op ∉ assignedOps ↔
    (0x01 ≤ op.toNat ∧ op.toNat ≤ 0x0F) ∨ (0x13 ≤ op.toNat ∧ op.toNat ≤ 0x1F) ∨
    (0x26 ≤ op.toNat ∧ op.toNat ≤ 0x2F) ∨ 0x34 ≤ op.toNat := by
  simp only [assignedOps, formatNOps, formatBOps, formatIOps, formatHOps, List.cons_append, List.nil_append,
    List.mem_cons, List.not_mem_nil, or_false, ← BitVec.toNat_inj, BitVec.toNat_ofNat]
  omega

theorem length_unassigned_ops :
    ((List.range 256).filter (fun k => decide (BitVec.ofNat 8 k ∉ assignedOps))).length = 242 := by
  decide +kernel

/-- Settles O8: no arm of the decoder takes such an `op`. -/
theorem unassignedOpcodesAreIllegal : Obligations.UnassignedOpcodesAreIllegal := by
  refine ⟨fun s w rest hin hop => ?_, not_mem_assignedOps_iff, length_unassigned_ops⟩
  exact ⟨decode_of_unassigned hop, step_of_decode_error hin (decode_of_unassigned hop)⟩

/-! ## The assembler (R86, R87) -/

theorem assemble_of_wellFormed {l : AsmLine} (hl : ∀ w, l ≠ .word w) (h : l.wellFormed = true) :
    l.assemble = some (l.expand.map encode) := by
  unfold AsmLine.assemble
  rw [if_pos h]
  split
  · next w => exact absurd rfl (hl w)
  · rfl

/-- The words of a well-formed line decode to what the line stands for (R86, R87). -/
theorem assemblesTo_expand {l : AsmLine} (hl : ∀ w, l ≠ .word w) (h : l.wellFormed = true) :
    AssemblesTo l l.expand :=
  ⟨_, assemble_of_wellFormed hl h, by simp [Function.comp_def]⟩

@[simp] theorem byteInRange_iff {d : Nat} : byteInRange d = true ↔ d ≤ 255 := decide_eq_true_iff

@[simp] theorem lenInRange_iff {n : Nat} : lenInRange n = true ↔ n ≤ 65535 := decide_eq_true_iff

@[simp] theorem byteInRange_eq_false_iff {d : Nat} : byteInRange d = false ↔ 255 < d := by
  simp [byteInRange]

@[simp] theorem lenInRange_eq_false_iff {n : Nat} : lenInRange n = false ↔ 65535 < n := by
  simp [lenInRange]

/-- Settles O10: a well-formed line assembles to the words of its expansion, another line is an assembly error. -/
theorem assembledWordsDecodeToTheLine : Obligations.AssembledWordsDecodeToTheLine := by
  refine ⟨?plain, ?byte, ?index, ?start, ?bytes, ?frame, fun _ => rfl, rfl⟩
  case plain =>
    refine ⟨?_, ?_, ?_, ?_, ?_, ?_, ?_, ?_, ?_⟩ <;> exact assemblesTo_expand nofun rfl
  case byte =>
    intro d
    refine ⟨fun h => ?_, fun h => ?_⟩
    · have hd := byteInRange_iff.mpr h
      exact ⟨assemblesTo_expand nofun hd, assemblesTo_expand nofun hd, assemblesTo_expand nofun hd⟩
    · have hd := byteInRange_eq_false_iff.mpr h
      exact ⟨AsmLine.assemble_eq_none hd, AsmLine.assemble_eq_none hd, AsmLine.assemble_eq_none hd⟩
  case index =>
    intro idx
    exact ⟨fun h => assemblesTo_expand nofun (lenInRange_iff.mpr h),
      fun h => AsmLine.assemble_eq_none (lenInRange_eq_false_iff.mpr h)⟩
  case start =>
    intro cmd seq len
    refine ⟨fun hcmd hseq hlen => assemblesTo_expand nofun ?_, fun h => AsmLine.assemble_eq_none ?_⟩
    · simp [AsmLine.wellFormed, hcmd, hseq, hlen]
    · simpa only [AsmLine.wellFormed, Bool.and_eq_false_iff, byteInRange_eq_false_iff, lenInRange_eq_false_iff,
        or_assoc] using h
  case bytes =>
    intro bytes
    refine ⟨fun h => ?_, fun h => ?_⟩
    · have hall : bytes.all byteInRange = true := by simpa using h
      exact ⟨assemblesTo_expand nofun hall, assemblesTo_expand nofun hall⟩
    · have hall : bytes.all byteInRange = false := by simpa using h
      exact ⟨AsmLine.assemble_eq_none hall, AsmLine.assemble_eq_none hall⟩
  case frame =>
    intro cmd seq payload
    refine ⟨fun hcmd hseq hlen hbytes => assemblesTo_expand nofun ?_, fun h => AsmLine.assemble_eq_none ?_⟩
    · simpa [AsmLine.wellFormed, hcmd, hseq, hlen] using hbytes
    · have hcases : byteInRange cmd = false ∨ byteInRange seq = false ∨ lenInRange payload.length = false ∨
          payload.all byteInRange = false := by simpa using h
      rcases hcases with h | h | h | h <;> simp only [AsmLine.wellFormed, h, Bool.and_false, Bool.false_and]

/-! ## The wire frame (R70 to R72) -/

theorem encodeFrame_eq_ok_iff {cmd seq : Byte} {p f : List Byte} :
    encodeFrame cmd seq p = .ok f ↔ p.length ≤ 65535 ∧ f = frameBytes cmd seq p := by
  unfold encodeFrame
  split
  · next h => simp [show p.length ≤ 65535 from h, eq_comm]
  · next h => simp [show ¬ p.length ≤ 65535 from h]

/-- What the CRC covers is header and payload (R72). -/
theorem length_frameBody (cmd seq : Byte) (p : List Byte) : (frameBody cmd seq p).length = 4 + p.length := by
  rw [frameBody, List.length_append]
  rfl

/-- The two header bytes of a length, little-endian (R71). -/
theorem lenLow_add_lenHigh (len : Len) : (lenLow len).toNat + 256 * (lenHigh len).toNat = len.toNat := by
  simp only [lenLow, lenHigh, BitVec.extractLsb'_toNat, Nat.shiftRight_eq_div_pow]
  omega

/-- Settles O26: the frame is marker, header, payload and CRC, one after the other. -/
theorem encodedFrameHasWireLayout : Obligations.EncodedFrameHasWireLayout := by
  intro cmd seq p f h
  obtain ⟨hlen, rfl⟩ := encodeFrame_eq_ok_iff.mp h
  have hcovered : (markerBytes ++ frameBody cmd seq p).length = 6 + p.length := by
    rw [List.length_append, length_frameBody, ← Nat.add_assoc]
    rfl
  refine ⟨?length, rfl, rfl, rfl, rfl, ⟨_, _, rfl, rfl, ?lengthField⟩, fun k hk => ?payload, ?crc⟩
  case length =>
    rw [frameBytes, List.length_append, hcovered, Nat.add_right_comm]
    rfl
  case lengthField =>
    rw [lenLow_add_lenHigh, BitVec.toNat_ofNat]
    omega
  case payload =>
    have htail : (frameBytes cmd seq p).drop 6 = p ++ bytesLE32 (crc32 (frameBody cmd seq p)) := rfl
    rw [← List.getElem?_drop, htail, List.getElem?_append_left hk]
  case crc =>
    rw [frameBytes, List.drop_left' hcovered, List.take_left' hcovered]
    rfl

/-! ## The ACK check (R92) -/

theorem byteAt_eq_iff {bytes : List Byte} {i : Nat} {b : Byte} (h : i < bytes.length) :
    byteAt bytes i = b ↔ bytes[i]? = some b := by
  simp [byteAt, h]

/-- Settles O60: a byte inside the payload is what the check reads there. -/
theorem ackCheckIsTheFiveConditions : Obligations.AckCheckIsTheFiveConditions := by
  intro f c s
  simp only [ackAccepted, Bool.and_eq_true, decide_eq_true_eq, and_assoc]
  refine and_congr_right fun _ => and_congr_right fun hlen => ?_
  rw [byteAt_eq_iff (by omega), byteAt_eq_iff (by omega), byteAt_eq_iff (by omega)]
  rfl

end Sys2Proof.Machine

end

section
/-! PROOF. The statements about the CRC function and the CRC unit (spec/40_crc.md): the eight rounds are linear over
`^^^`, which gives the table-driven form (R110) and the residue (R116); then what the unit reads after a run of
operations (R112 to R115), and the reads (R56). -/

namespace Sys2Proof.Machine

/-! ## The rounds (R110) -/

@[simp] theorem crcBits_zero (c : Word) : crcBits 0 c = c := rfl

theorem crcBits_succ (n : Nat) (c : Word) : crcBits (n + 1) c = crcBits n (crcBit c) := rfl

theorem crcBits_add (m n : Nat) (c : Word) : crcBits (m + n) c = crcBits n (crcBits m c) := by
  induction m generalizing c with
  | zero => rw [Nat.zero_add, crcBits_zero]
  | succ m ih => rw [Nat.succ_add, crcBits_succ, ih, crcBits_succ]

theorem crcBits_eq_repeat (n : Nat) (c : Word) : crcBits n c = Nat.repeat crcBit n c := by
  induction n with
  | zero => rfl
  | succ n ih => rw [crcBits_add, ih]; rfl

/-- A round is linear: the polynomial comes in for the first register's low bit, for the second's, or cancels. -/
theorem crcBit_xor (c d : Word) : crcBit (c ^^^ d) = crcBit c ^^^ crcBit d := by
  simp only [crcBit, BitVec.getLsbD_xor, BitVec.ushiftRight_xor_distrib]
  cases c.getLsbD 0 <;> cases d.getLsbD 0
  case true.true =>
    have hcancel : Config.crcPoly ^^^ (d >>> 1 ^^^ Config.crcPoly) = d >>> 1 := by
      rw [BitVec.xor_comm, BitVec.xor_assoc, BitVec.xor_self, BitVec.xor_zero]
    simp [BitVec.xor_assoc, hcancel]
  case true.false => simp [BitVec.xor_assoc, BitVec.xor_comm Config.crcPoly]
  case false.true => simp [BitVec.xor_assoc]
  case false.false => simp

theorem crcBits_xor (n : Nat) (c d : Word) : crcBits n (c ^^^ d) = crcBits n c ^^^ crcBits n d := by
  induction n generalizing c d with
  | zero => rfl
  | succ n ih => simp only [crcBits_succ, crcBit_xor, ih]

/-- While the bits shifted out are 0, a round is a shift. -/
theorem crcBits_of_low_zero {n : Nat} {c : Word} (h : ∀ k < n, c.getLsbD k = false) : crcBits n c = c >>> n := by
  induction n generalizing c with
  | zero => simp
  | succ n ih =>
    have hround : crcBit c = c >>> 1 := if_neg (by rw [h 0 n.succ_pos]; decide)
    have hlow (k : Nat) (hk : k < n) : (c >>> 1).getLsbD k = false := by
      rw [BitVec.getLsbD_ushiftRight]
      exact h _ (by omega)
    rw [crcBits_succ, hround, ih hlow, ← BitVec.shiftRight_add, Nat.add_comm]

/-- A byte reaches the low eight bits only. -/
theorem xor_zext32_shiftRight (w : Word) (b : Byte) : (w ^^^ zext32 b) >>> 8 = w >>> 8 := by
  apply BitVec.eq_of_getLsbD_eq
  intro k hk
  simp [zext32]

/-- A byte's rounds on a word take in its low byte and shift the rest down. -/
theorem crcBits_eight_xor (c w : Word) : crcBits 8 (c ^^^ w) = crcStep c (w.setWidth 8) ^^^ w >>> 8 := by
  have hhigh : crcBits 8 (w ^^^ zext32 (w.setWidth 8)) = w >>> 8 := by
    rw [crcBits_of_low_zero, xor_zext32_shiftRight]
    intro k hk
    simp [zext32, hk, show k < 32 by omega]
  have hsplit : c ^^^ w = (c ^^^ zext32 (w.setWidth 8)) ^^^ (w ^^^ zext32 (w.setWidth 8)) := by
    rw [BitVec.xor_comm w, BitVec.xor_assoc, ← BitVec.xor_assoc (zext32 _), BitVec.xor_self, BitVec.zero_xor]
  rw [hsplit, crcBits_xor, hhigh, crcStep]

/-- The table-driven form: one look-up for the low byte, one shift (D34). -/
theorem crcStep_eq_table (c : Word) (b : Byte) :
    crcStep c b = (c >>> 8) ^^^ crcStep 0#32 (c.setWidth 8 ^^^ b) := by
  have hlow : (c ^^^ zext32 b).setWidth 8 = c.setWidth 8 ^^^ b := by
    simp [zext32]
  calc crcStep c b = crcBits 8 (0#32 ^^^ (c ^^^ zext32 b)) := by rw [BitVec.zero_xor, crcStep]
    _ = (c >>> 8) ^^^ crcStep 0#32 (c.setWidth 8 ^^^ b) := by
      rw [crcBits_eight_xor, hlow, xor_zext32_shiftRight, BitVec.xor_comm]

/-- Settles O18: a byte's rounds are linear, and on a word with a zero low byte they are a shift. -/
theorem crcStepBitwiseEqualsTableDriven : Obligations.CrcStepBitwiseEqualsTableDriven :=
  fun c b => ⟨crcBits_eq_repeat 8 _, crcStep_eq_table c b⟩

/-! ## Check value and residue (R116) -/

/-- The register after the four bytes of a word, low byte first, is 32 rounds on the register with the word in it. -/
theorem crcRegister_bytesLE32 (c w : Word) : crcRegister c (bytesLE32 w) = crcBits 32 (c ^^^ w) := by
  have hrounds : crcBits 32 (c ^^^ w) = crcBits 8 (crcBits 8 (crcBits 8 (crcBits 8 (c ^^^ w)))) := by
    simp only [← crcBits_add]
  have hout : w >>> 32 = 0#32 := BitVec.ushiftRight_eq_zero le_rfl
  rw [hrounds]
  simp only [crcBits_eight_xor, ← BitVec.shiftRight_add, hout, BitVec.xor_zero, bytesLE32, crcRegister_cons,
    crcRegister_nil, ← BitVec.setWidth_ushiftRight_eq_extractLsb, BitVec.ushiftRight_zero]

/-- Settles O19: the message's register cancels, and what is left is 32 rounds on the final XOR. -/
theorem crcCheckValueAndResidue : Obligations.CrcCheckValueAndResidue := by
  refine ⟨by decide +kernel, fun m => ?_⟩
  calc crcRegister 0xFFFFFFFF#32 (m ++ bytesLE32 (crc32 m))
      = crcBits 32 (crcRegister Config.crcInit m ^^^ crc32 m) := by
        rw [crcRegister_append, crcRegister_bytesLE32]; rfl
    _ = crcBits 32 Config.crcFinalXor := by rw [crc32, ← BitVec.xor_assoc, BitVec.xor_self, BitVec.zero_xor]
    _ = 0xDEBB20E3#32 := by decide +kernel

/-! ## The three operations (R113 to R115) -/

/-- A result without `out` bytes leaves the queue (R62). -/
theorem withResult_of_out_nil {r : OpResult} (h : r.out = []) (s : State) :
    withResult r s = { s with result := some r } := by
  rw [withResult, h, List.append_nil]

/-- `return` without `out` bytes changes nothing but the result. -/
theorem ret_nil_eq (status : Status) (data : Word) (s : State) :
    ret status data [] s = .next { s with result := some ⟨status, data, []⟩ } :=
  congrArg Host.Outcome.next (withResult_of_out_nil rfl s)

/-- What the decoder answers for an operation's `op` with any operand (R82, R83). -/
theorem decode_opWord (i : Instr) (x : Word) :
    decode (opWord i.opcode x) =
      if x &&& i.format.reservedMask = 0#32 then .ok (i.withOperand x) else .error .reservedOperandBit := by
  rw [decode_of_opField (Laws.EncodedFields.opField_opWord _ _), Laws.EncodedFields.operandField_opWord]

/-- Settles O15: format N, and the operation sets one register. -/
theorem crcInitStartsNewCrc : Obligations.CrcInitStartsNewCrc :=
  ⟨fun x => (decode_opWord .crcInit x).trans (if_congr and_reservedMask_n rfl rfl), fun _ => ret_nil_eq _ _ _, rfl⟩

/-- Settles O16: format B, and the operation steps one register; the rule's values by evaluation. -/
theorem crcByteStepsTheRegister : Obligations.CrcByteStepsTheRegister :=
  ⟨fun x => (decode_opWord (.crcByte 0#8) x).trans (if_congr and_reservedMask_b rfl rfl), fun _ _ => ret_nil_eq _ _ _,
    by decide, by decide, by decide⟩

/-- Settles O17: format N, and the operation returns without a change. -/
theorem crcReadReturnsFinalXor : Obligations.CrcReadReturnsFinalXor :=
  ⟨fun x => (decode_opWord .crcRead x).trans (if_congr and_reservedMask_n rfl rfl), fun _ => ret_nil_eq _ _ _⟩

/-! ## The reads (R56) -/

/-- A read returns, and emits and changes nothing. -/
theorem exec_of_isReadOp {i : Instr} (h : isReadOp i = true) (s : State) :
    ∃ status data, exec i s = ret status data [] s := by
  cases i with
  | crcRead | rxStatus | txStatus => exact ⟨_, _, rfl⟩
  | rxReadhdr =>
    show ∃ _ _, execRxReadhdr s = _
    unfold execRxReadhdr
    split <;> exact ⟨_, _, rfl⟩
  | rxPeek idx =>
    show ∃ _ _, execRxPeek idx s = _
    unfold execRxPeek
    split
    · split <;> exact ⟨_, _, rfl⟩
    · exact ⟨_, _, rfl⟩
  | _ => cases h

/-- No operation reads the last result: with another one in its place, a state gets the same answer (log 4). -/
theorem exec_withResult {i : Instr} {s t : State} {r r' : OpResult} (h : exec i s = .next t) (hr : t.result = some r) :
    exec i (withResult r' s) = .next (withResult r (withUnit i.cfeUnit t (withResult r' s))) := by
  obtain ⟨r₀, _, hr₀, hnext⟩ := exec_actsOnUnit s (withResult r' s) i t h
  obtain rfl := Option.some.inj (hr.symm.trans hr₀)
  rwa [withUnit_withResult_right, withUnit_self] at hnext

/-- Settles O52: a read changes the result alone, and no operation reads the result. -/
theorem readsAreIdempotent : Obligations.ReadsAreIdempotent := by
  intro i s hi
  obtain ⟨status, data, hread⟩ := exec_of_isReadOp hi s
  have hagain := exec_withResult (r' := ⟨status, data, []⟩) hread rfl
  rw [withUnit_withResult_left, withUnit_withResult_right, withUnit_self] at hagain
  simp only [withResult_of_out_nil] at hagain
  exact ⟨_, _, hread.trans (ret_nil_eq _ _ _), rfl, hagain⟩

/-! ## Operations the host issues one after the other (R60) -/

/-- RX.BYTE stops in COLLECT without a cell only (R29). -/
theorem execRxByte_answers {s : State} (h : s.rxState = .collect → s.rxCount.toNat < Config.rxCap) (d : Byte) :
    ∃ t, execRxByte d s = .next t := by
  unfold execRxByte
  split
  · exact ⟨_, rfl⟩
  · split
    · unfold rxSeek1
      split <;> exact ⟨_, rfl⟩
    · unfold rxSeek2
      split <;> exact ⟨_, rfl⟩
    · next hs =>
      rw [rxCollect, if_pos (h hs)]
      exact rxCheck_next _

/-- From a state with the invariant every operation answers a next state (R203). -/
theorem exec_answers {s : State} (h : Inv s) (i : Instr) : ∃ t, exec i s = .next t := by
  cases i with
  | rxByte d => exact execRxByte_answers (fun hs => Nat.lt_succ_of_le (h.rx.collectRoom hs)) d
  | rxReadhdr =>
    obtain ⟨_, _, hread⟩ := exec_of_isReadOp (i := .rxReadhdr) rfl s
    exact ⟨_, hread⟩
  | rxPeek idx =>
    obtain ⟨_, _, hread⟩ := exec_of_isReadOp (i := .rxPeek idx) rfl s
    exact ⟨_, hread⟩
  | txStart cmd seq len =>
    show ∃ t, execTxStart cmd seq len s = .next t
    unfold execTxStart
    split
    · exact ⟨_, rfl⟩
    · dsimp only
      split <;> exact ⟨_, rfl⟩
  | txByte d =>
    show ∃ t, execTxByte d s = .next t
    unfold execTxByte
    split
    · dsimp only
      split <;> exact ⟨_, rfl⟩
    · exact ⟨_, rfl⟩
  | _ => exact ⟨_, rfl⟩

/-- The step on an operation's word is the operation (R202). -/
theorem step_encode (i : Instr) (s : State) : step (withInput (.word (encode i) :: s.input) s) = exec i s := by
  unfold step
  simp only [withInput_input, decode_encode]
  rfl

/-- Issuing an operation gives what it answers. -/
theorem issue_of_exec {i : Instr} {s t : State} {r : OpResult} (h : exec i s = .next t) (hr : t.result = some r) :
    issue i s = some (t, r) := by
  rw [issue, issueWord, step_encode, h]
  simp [hr]

theorem issue_answers {s : State} (h : Inv s) (i : Instr) :
    ∃ t r, exec i s = .next t ∧ issue i s = some (t, r) := by
  obtain ⟨t, ht⟩ := exec_answers h i
  obtain ⟨r, _, hr, _⟩ := exec_changes_unit_only ht
  exact ⟨t, r, ht, issue_of_exec ht hr⟩

theorem issueAll_cons {i : Instr} {ops : List Instr} {s t u : State} {r : OpResult} {rs : List OpResult}
    (h : issue i s = some (t, r)) (hops : issueAll ops t = some (u, rs)) :
    issueAll (i :: ops) s = some (u, r :: rs) := by
  simp [issueAll, h, hops]

theorem issueAll_append {ops ops' : List Instr} {s t u : State} {rs rs' : List OpResult}
    (h : issueAll ops s = some (t, rs)) (h' : issueAll ops' t = some (u, rs')) :
    issueAll (ops ++ ops') s = some (u, rs ++ rs') := by
  induction ops generalizing s rs with
  | nil => cases h; exact h'
  | cons i ops ih =>
    simp only [issueAll, Option.bind_eq_bind, Option.bind_eq_some_iff] at h
    obtain ⟨⟨a, r⟩, hi, ⟨b, rs₁⟩, hops, heq⟩ := h
    cases heq
    exact issueAll_cons hi (ih hops)

/-! ## The CRC unit along a run (R112, R115) -/

/-- Only the CRC unit's own operations reach `crc_acc`: CRC.BYTE steps it, CRC.READ leaves it (R61, R114, R115). -/
theorem exec_crcAcc {i : Instr} {s t : State} (hi : i ≠ .crcInit) (h : exec i s = .next t) :
    t.crcAcc = crcRegister s.crcAcc (crcByteOf i).toList := by
  cases i with
  | crcInit => exact absurd rfl hi
  | crcByte d | crcRead =>
    obtain rfl := (ret_next_iff _ _ _ _ _).mp h
    rfl
  | _ => exact ((unitsAreDisjointAndCommute.1 _ _ _ h).1 nofun).symm

/-- Any operations but CRC.INIT, from a state with the invariant: all answer, and the register takes in the bytes of
the CRC.BYTE operations among them (R111, R112). -/
theorem issueAll_crcAcc {ops : List Instr} {s : State} (hs : Inv s) (hops : .crcInit ∉ ops) :
    ∃ t rs, issueAll ops s = some (t, rs) ∧ t.crcAcc = crcRegister s.crcAcc (ops.filterMap crcByteOf) := by
  induction ops generalizing s with
  | nil => exact ⟨s, [], rfl, rfl⟩
  | cons i ops ih =>
    obtain ⟨hi, hops⟩ := not_or.mp (mt List.mem_cons.mpr hops)
    obtain ⟨a, r, ha, hissue⟩ := issue_answers hs i
    obtain ⟨t, rs, hrest, hacc⟩ := ih (exec_keeps_inv hs ha) hops
    refine ⟨t, r :: rs, issueAll_cons hissue hrest, ?_⟩
    rw [hacc, exec_crcAcc (Ne.symm hi) ha, ← crcRegister_append]
    cases h : crcByteOf i <;> simp [h]

/-- Settles O20: CRC.INIT sets the register, the operations between add their bytes, CRC.READ returns it. -/
theorem crcUnitReadsCrc32OfItsBytes : Obligations.CrcUnitReadsCrc32OfItsBytes := by
  intro s ops hs hops
  have hinit : exec .crcInit s = .next _ := rfl
  obtain ⟨t, rs, hrun, hacc⟩ := issueAll_crcAcc (exec_keeps_inv hs hinit) hops
  have hread : issue .crcRead t = some (_, _) := issue_of_exec rfl rfl
  refine ⟨_, _, issueAll_append (issueAll_cons (issue_of_exec hinit rfl) hrun) (issueAll_cons hread rfl), ?_⟩
  rw [List.getLast?_concat, hacc]
  rfl

end Sys2Proof.Machine

end

section
/-! PROOF. The statements about the codec functions (spec/41_frame_codec.md R130 to R136): a candidate is a body and the
four bytes of a CRC, so that the CRC register after all its bytes says whether it is valid; and no change of one byte
escapes that register. -/

namespace Sys2Proof.Machine

/-! ## A candidate is a body and a CRC (R130, R133) -/

theorem bytesLE32_le32 (a b c d : Byte) : bytesLE32 (le32 a b c d) = [a, b, c, d] := by
  obtain ⟨h0, h1, h2, h3⟩ := le32_bytes a b c d
  rw [bytesLE32, h0, h1, h2, h3]

theorem isCandidate_iff {b : List Byte} : isCandidate b = true ↔ b.length = 8 + candidateLength b :=
  decide_eq_true_iff

theorem byteAt_append_left {a b : List Byte} {i : Nat} (h : i < a.length) : byteAt (a ++ b) i = byteAt a i := by
  simp [byteAt, List.getElem?_append_left h]

theorem byteAt_append_right {a b : List Byte} {i j : Nat} (h : i = a.length + j) : byteAt (a ++ b) i = byteAt b j := by
  simp [byteAt, h, List.getElem?_append_right]

/-- The declared length stands in the first four bytes (R133). -/
theorem candidateLength_append {a : List Byte} (b : List Byte) (h : 4 ≤ a.length) :
    candidateLength (a ++ b) = candidateLength a := by
  rw [candidateLength, byteAt_append_left (by omega), byteAt_append_left (by omega), candidateLength]

theorem isCandidate_append_bytesLE32 {body : List Byte} (w : Word) (h : body.length = 4 + candidateLength body) :
    isCandidate (body ++ bytesLE32 w) = true := by
  rw [isCandidate_iff, candidateLength_append _ (by omega), List.length_append, h]
  exact Nat.add_right_comm 4 _ 4

/-- `decodeOne` compares the CRC of the body with the word behind it (R133). -/
theorem decodeOne_append_bytesLE32 {body : List Byte} (w : Word) (h : body.length = 4 + candidateLength body) :
    decodeOne (body ++ bytesLE32 w) =
      if crc32 body = w then .frame (byteAt body 0) (byteAt body 1) (body.drop 4) else .mismatch := by
  have hrcvd : le32 (byteAt (body ++ bytesLE32 w) (4 + candidateLength body))
      (byteAt (body ++ bytesLE32 w) (5 + candidateLength body))
      (byteAt (body ++ bytesLE32 w) (6 + candidateLength body))
      (byteAt (body ++ bytesLE32 w) (7 + candidateLength body)) = w := by
    rw [byteAt_append_right (j := 0) (by omega), byteAt_append_right (j := 1) (by omega),
      byteAt_append_right (j := 2) (by omega), byteAt_append_right (j := 3) (by omega)]
    exact le32_bytesLE32 w
  unfold decodeOne
  dsimp only
  rw [candidateLength_append _ (by omega), hrcvd, List.take_left' h, byteAt_append_left (by omega),
    byteAt_append_left (by omega)]

/-- Every candidate has this form. -/
theorem exists_body_of_isCandidate {b : List Byte} (h : isCandidate b = true) :
    ∃ body w, b = body ++ bytesLE32 w ∧ body.length = 4 + candidateLength body := by
  have hlen := isCandidate_iff.mp h
  have htail : (b.drop (4 + candidateLength b)).length = 4 := by rw [List.length_drop]; omega
  have hbody : (b.take (4 + candidateLength b)).length = 4 + candidateLength b := by rw [List.length_take]; omega
  obtain ⟨x0, x1, x2, x3, hx⟩ := List.length_eq_four.mp htail
  have hb : b = b.take (4 + candidateLength b) ++ bytesLE32 (le32 x0 x1 x2 x3) := by
    rw [bytesLE32_le32, ← hx, List.take_append_drop]
  refine ⟨_, _, hb, hbody.trans ?_⟩
  conv_lhs => rw [hb, candidateLength_append _ (by omega)]

/-! ## Encoding, then decoding (R131, R135) -/

/-- A payload of at most 65535 bytes has its length in 16 bits (R71). -/
theorem toNat_ofNat_length {n : Nat} (h : n ≤ 65535) : (BitVec.ofNat 16 n).toNat = n := by
  rw [BitVec.toNat_ofNat, Nat.mod_eq_of_lt (by omega)]

theorem candidateLength_frameBody (cmd seq : Byte) {p : List Byte} (h : p.length ≤ 65535) :
    candidateLength (frameBody cmd seq p) = p.length := by
  calc candidateLength (frameBody cmd seq p)
      = (le16 (lenLow (BitVec.ofNat 16 p.length)) (lenHigh (BitVec.ofNat 16 p.length))).toNat := rfl
    _ = p.length := by rw [le16_len, toNat_ofNat_length h]

theorem length_frameBody_eq_candidateLength (cmd seq : Byte) {p : List Byte} (h : p.length ≤ 65535) :
    (frameBody cmd seq p).length = 4 + candidateLength (frameBody cmd seq p) := by
  rw [length_frameBody, candidateLength_frameBody cmd seq h]

/-- Without its marker a frame is a body and the body's CRC (R130). -/
theorem drop_two_frameBytes (cmd seq : Byte) (p : List Byte) :
    (frameBytes cmd seq p).drop 2 = frameBody cmd seq p ++ bytesLE32 (crc32 (frameBody cmd seq p)) := rfl

/-- Settles O27: the body's declared length is that of the payload, and the word behind the body is its CRC. -/
theorem decodeOneInvertsEncode : Obligations.DecodeOneInvertsEncode := by
  intro cmd seq p f hf
  obtain ⟨hp, rfl⟩ := encodeFrame_eq_ok_iff.mp hf
  have hbody := length_frameBody_eq_candidateLength cmd seq hp
  rw [drop_two_frameBytes]
  refine ⟨isCandidate_append_bytesLE32 _ hbody, ?_⟩
  rw [decodeOne_append_bytesLE32 _ hbody, if_pos rfl]
  rfl

/-- Settles O25: `encode` and the assembler both compare the payload's length with 65535. -/
theorem encodeRejectsOnlyLongPayloads : Obligations.EncodeRejectsOnlyLongPayloads := by
  refine ⟨fun cmd seq p hp => if_neg (Nat.not_le.mpr hp),
    fun cmd seq p hp => ⟨_, encodeFrame_eq_ok_iff.mpr ⟨hp, rfl⟩⟩, fun cmd seq p hp => AsmLine.assemble_eq_none ?_⟩
  rw [AsmLine.wellFormed, lenInRange_eq_false_iff.mpr hp, Bool.and_false]

/-! ## The register loses nothing (R110, R136) -/

/-- A round keeps every bit: a 1 shifted out comes back as bit 31 of the polynomial. -/
theorem eq_zero_of_crcBit_eq_zero {c : Word} (h : crcBit c = 0#32) : c = 0#32 := by
  unfold crcBit at h
  split at h
  · have hbit := congrArg (BitVec.getLsbD · 31) h
    simp [Config.crcPoly] at hbit
  · next hlow =>
    apply BitVec.eq_of_getLsbD_eq
    intro k hk
    cases k with
    | zero => simpa using hlow
    | succ k =>
      have hbit := congrArg (BitVec.getLsbD · k) h
      simpa [Nat.add_comm] using hbit

/-- By linearity a round that keeps every bit is injective. -/
theorem crcBit_injective : Function.Injective crcBit := by
  intro c d h
  have hzero : crcBit (c ^^^ d) = 0#32 := by rw [crcBit_xor, h, BitVec.xor_self]
  exact BitVec.xor_eq_zero_iff.mp (eq_zero_of_crcBit_eq_zero hzero)

theorem crcBits_injective (n : Nat) : Function.Injective (crcBits n) := by
  induction n with
  | zero => exact Function.injective_id
  | succ n ih => exact ih.comp crcBit_injective

theorem crcStep_left_injective (b : Byte) : Function.Injective (crcStep · b) :=
  (crcBits_injective 8).comp fun _ _ => (BitVec.xor_left_inj _).mp

theorem crcStep_right_injective (c : Word) : Function.Injective (crcStep c) := by
  intro b b' h
  have hword : c ^^^ zext32 b = c ^^^ zext32 b' := crcBits_injective 8 h
  simpa [zext32] using congrArg (BitVec.setWidth 8) ((BitVec.xor_right_inj c).mp hword)

theorem crcRegister_injective (bytes : List Byte) : Function.Injective (crcRegister · bytes) := by
  induction bytes with
  | nil => exact Function.injective_id
  | cons b bytes ih => exact ih.comp (crcStep_left_injective b)

/-- Putting another byte in one place changes the register after the list. -/
theorem byteAt_eq_of_crcRegister_set_eq {bytes : List Byte} {c : Word} {i : Nat} {x : Byte} (hi : i < bytes.length)
    (h : crcRegister c (bytes.set i x) = crcRegister c bytes) : byteAt bytes i = x := by
  induction bytes generalizing c i with
  | nil => cases hi
  | cons b bytes ih =>
    cases i with
    | zero => exact (crcStep_right_injective c (crcRegister_injective bytes h)).symm
    | succ i => exact ih (Nat.lt_of_succ_lt_succ hi) h

/-- A candidate is a MISMATCH unless the register after all its bytes is the residue (R116, R133). -/
theorem decodeOne_eq_mismatch_iff_residue {b : List Byte} (h : isCandidate b = true) :
    decodeOne b = .mismatch ↔ crcRegister Config.crcInit b ≠ 0xDEBB20E3#32 := by
  obtain ⟨body, w, rfl, hbody⟩ := exists_body_of_isCandidate h
  have hresidue : (0xDEBB20E3#32 : Word) = crcBits 32 Config.crcFinalXor := by decide +kernel
  have hcrc : crc32 body = w ↔ crcRegister Config.crcInit body ^^^ w = Config.crcFinalXor := by
    rw [crc32, ← BitVec.xor_eq_zero_iff, ← BitVec.xor_eq_zero_iff (y := Config.crcFinalXor), BitVec.xor_assoc,
      BitVec.xor_assoc, BitVec.xor_comm w]
  rw [decodeOne_append_bytesLE32 w hbody, crcRegister_append, crcRegister_bytesLE32, hresidue, Ne,
    (crcBits_injective 32).eq_iff, ← hcrc]
  split
  · next heq => simp [heq]
  · next hne => simp [hne]

theorem byteAt_set_ne {bytes : List Byte} {i j : Nat} (x : Byte) (h : i ≠ j) :
    byteAt (bytes.set i x) j = byteAt bytes j := by
  simp [byteAt, List.getElem?_set_ne h]

/-- A change outside the two length bytes leaves a candidate a candidate (R136). -/
theorem isCandidate_set {b : List Byte} {i : Nat} (x : Byte) (h2 : i ≠ 2) (h3 : i ≠ 3) :
    isCandidate (b.set i x) = isCandidate b := by
  rw [isCandidate, candidateLength, byteAt_set_ne x h2, byteAt_set_ne x h3, List.length_set]
  rfl

/-- A change of one byte outside the two length bytes makes a valid candidate a MISMATCH. -/
theorem decodeOne_set_eq_mismatch {b : List Byte} {i : Nat} {x : Byte} (hb : isCandidate b = true)
    (hvalid : decodeOne b ≠ .mismatch) (hi : i < b.length) (h2 : i ≠ 2) (h3 : i ≠ 3) (hx : byteAt b i ≠ x) :
    decodeOne (b.set i x) = .mismatch := by
  have hres : crcRegister Config.crcInit b = 0xDEBB20E3#32 :=
    not_not.mp (mt (decodeOne_eq_mismatch_iff_residue hb).mpr hvalid)
  rw [decodeOne_eq_mismatch_iff_residue ((isCandidate_set x h2 h3).trans hb), ← hres]
  exact mt (byteAt_eq_of_crcRegister_set_eq hi) hx

theorem xor_oneBit_ne (b : Byte) {k : Nat} (hk : k < 8) : b ≠ b ^^^ (1#8 <<< k) := by
  intro h
  have hbit := congrArg (BitVec.getLsbD · k) h
  simp [hk] at hbit

/-- Settles O28: a flipped bit is a changed byte. -/
theorem singleBitErrorIsDetected : Obligations.SingleBitErrorIsDetected := by
  intro b cmd seq p hb hframe i k hi h2 h3 hk
  exact ⟨(isCandidate_set _ h2 h3).trans hb,
    decodeOne_set_eq_mismatch hb (by simp [hframe]) hi h2 h3 (xor_oneBit_ne _ hk)⟩

end Sys2Proof.Machine

end

section
/-! PROOF. The statements about the TX unit (spec/41_frame_codec.md R140 to R144): what each operation answers; then a
run of TX.FRAME's operations alone, and the same run among operations of the other units. -/

namespace Sys2Proof.Machine

/-! ## The four operations (R140 to R143) -/

section
variable {s : State}

theorem exec_txStart_of_busy (h : s.txBusy = true) (cmd seq : Byte) (len : Len) :
    exec (.txStart cmd seq len) s = .next { s with result := some ⟨.paramError, 0#32, []⟩ } :=
  (if_pos h).trans (raise_eq _ _)

/-- With no payload to come the whole frame goes out at once (R140). -/
theorem exec_txStart_of_zero (h : s.txBusy = false) (cmd seq : Byte) :
    exec (.txStart cmd seq 0#16) s = ret .ok 0#32 (frameBytes cmd seq [])
      { s with txCrc := crcRegister Config.crcInit (headerBytes cmd seq 0#16), txBusy := false, txRemaining := 0#16 } :=
  (if_neg (by simp [h])).trans (if_pos rfl)

theorem exec_txStart_of_ne_zero (h : s.txBusy = false) (cmd seq : Byte) {len : Len} (hlen : len ≠ 0#16) :
    exec (.txStart cmd seq len) s = ret .ok 0#32 (markerBytes ++ headerBytes cmd seq len)
      { s with txCrc := crcRegister Config.crcInit (headerBytes cmd seq len), txBusy := true, txRemaining := len } :=
  (if_neg (by simp [h])).trans (if_neg hlen)

theorem exec_txByte_of_idle (h : s.txBusy = false) (d : Byte) :
    exec (.txByte d) s = .next { s with result := some ⟨.paramError, 0#32, []⟩ } :=
  (if_neg (by simp [h])).trans (raise_eq _ _)

theorem exec_txByte_of_last (h : s.txBusy = true) (hlast : s.txRemaining = 1#16) (d : Byte) :
    exec (.txByte d) s = ret .ok 0#32 (d :: bytesLE32 (crcStep s.txCrc d ^^^ Config.crcFinalXor))
      { s with txCrc := crcStep s.txCrc d, txRemaining := 0#16, txBusy := false } := by
  refine (if_pos h).trans ((if_pos hlast).trans ?_)
  rw [hlast]
  rfl

theorem exec_txByte_of_more (h : s.txBusy = true) (hmore : s.txRemaining ≠ 1#16) (d : Byte) :
    exec (.txByte d) s =
      ret .ok 0#32 [d] { s with txCrc := crcStep s.txCrc d, txRemaining := s.txRemaining - 1#16 } :=
  (if_pos h).trans (if_neg hmore)

end

/-- The subtraction does not wrap where a byte is needed (R27, R141). -/
theorem toNat_sub_one_add_one {n : Len} (h : n ≠ 0#16) : (n - 1#16).toNat + 1 = n.toNat := by
  bv_omega

theorem txStatusWord_getLsbD (s : State) {k : Nat} (hk : k < 32) :
    (txStatusWord s).getLsbD k =
      if k = 0 then s.txBusy else if k < 16 then false else s.txRemaining.getLsbD (k - 16) := by
  simp only [txStatusWord, flagWord, BitVec.getLsbD_or, BitVec.getLsbD_shiftLeft, BitVec.getLsbD_setWidth,
    BitVec.getLsbD_ofBool]
  by_cases h0 : k = 0
  · simp [h0]
  · by_cases h16 : k < 16
    · simp [h0, h16]
    · simp [h0, h16, hk, show k - 16 < 32 by omega]

/-- Settles O21: format H, and the three cases of TX.START. -/
theorem txStartBeginsAFrame : Obligations.TxStartBeginsAFrame :=
  ⟨fun x => (decode_opWord (.txStart 0#8 0#8 0#16) x).trans (if_pos (Laws.EncodedFields.operandH_reserved x)),
    fun _ cmd seq len h => exec_txStart_of_busy h cmd seq len,
    fun _ cmd seq h => exec_txStart_of_zero h cmd seq,
    fun _ cmd seq _ h hlen => exec_txStart_of_ne_zero h cmd seq hlen⟩

/-- Settles O22: format B, and the three cases of TX.BYTE; by R27 a busy unit needs at least one byte. -/
theorem txByteSuppliesPayload : Obligations.TxByteSuppliesPayload := by
  refine ⟨fun x => (decode_opWord (.txByte 0#8) x).trans (if_congr and_reservedMask_b rfl rfl),
    fun s d h => exec_txByte_of_idle h d, fun s d _ h hlast => exec_txByte_of_last h hlast d,
    fun s d hinv h hmore => ⟨_, exec_txByte_of_more h hmore d, toNat_sub_one_add_one fun hzero => ?_, rfl⟩⟩
  exact absurd (h.symm.trans (hinv.mpr hzero)) (by decide)

/-- Settles O23: format N; on an idle unit both registers have their values already (R27). -/
theorem txAbortReturnsToIdle : Obligations.TxAbortReturnsToIdle := by
  refine ⟨fun x => (decode_opWord .txAbort x).trans (if_congr and_reservedMask_n rfl rfl), fun _ => ret_nil_eq _ _ _,
    fun s hinv h => (ret_nil_eq _ _ _).trans ?_⟩
  rw [← h, ← hinv.mp h]

/-- Settles O24: format N, and the bits of the status word. -/
theorem txStatusShowsBusyAndRemaining : Obligations.TxStatusShowsBusyAndRemaining := by
  refine ⟨fun x => (decode_opWord .txStatus x).trans (if_congr and_reservedMask_n rfl rfl),
    fun s => ⟨_, ret_nil_eq _ _ _, txStatusWord_getLsbD s (by decide), ?zeros, ?remaining⟩⟩
  case zeros =>
    apply BitVec.eq_of_getLsbD_eq
    intro k hk
    rw [BitVec.getLsbD_extractLsb', txStatusWord_getLsbD s (by omega), if_neg (by omega), if_pos (by omega)]
    simp
  case remaining =>
    apply BitVec.eq_of_getLsbD_eq
    intro k hk
    rw [BitVec.getLsbD_extractLsb', txStatusWord_getLsbD s (by omega), if_neg (by omega), if_neg (by omega)]
    simp [hk]

/-! ## TX.FRAME alone (R140, R141) -/

theorem outBytes_cons (r : OpResult) (rs : List OpResult) : outBytes (r :: rs) = r.out ++ outBytes rs := rfl

/-- The payload bytes that a busy unit needs, given one after the other, go out, and the CRC behind them. -/
theorem issueAll_txBytes {q : List Byte} {s : State} (hq : q ≠ []) (hbusy : s.txBusy = true)
    (hneed : s.txRemaining.toNat = q.length) :
    ∃ t rs, issueAll (q.map .txByte) s = some (t, rs) ∧ (∀ r ∈ rs, r.status = .ok) ∧
      outBytes rs = q ++ bytesLE32 (crcRegister s.txCrc q ^^^ Config.crcFinalXor) ∧ t.txBusy = false := by
  induction q generalizing s with
  | nil => exact absurd rfl hq
  | cons d q ih =>
    by_cases hlast : q = []
    · subst hlast
      have hone : s.txRemaining = 1#16 := BitVec.eq_of_toNat_eq hneed
      have hissue : issue (.txByte d) s = some (_, _) := issue_of_exec (exec_txByte_of_last hbusy hone d) rfl
      exact ⟨_, _, issueAll_cons hissue rfl, by simp, List.append_nil _, rfl⟩
    · have hpos : 0 < q.length := List.length_pos_iff.mpr hlast
      rw [List.length_cons] at hneed
      have hmore : s.txRemaining ≠ 1#16 := by bv_omega
      have hleft : (s.txRemaining - 1#16).toNat = q.length := by bv_omega
      obtain ⟨a, hissue, habusy, haneed, hacrc⟩ : ∃ a, issue (.txByte d) s = some (a, ⟨.ok, 0#32, [d]⟩) ∧
          a.txBusy = true ∧ a.txRemaining.toNat = q.length ∧ a.txCrc = crcStep s.txCrc d :=
        ⟨_, issue_of_exec (exec_txByte_of_more hbusy hmore d) rfl, hbusy, hleft, rfl⟩
      obtain ⟨t, rs, hrun, hok, hout, hidle⟩ := ih hlast habusy haneed
      refine ⟨t, _, issueAll_cons hissue hrun, List.forall_mem_cons.mpr ⟨rfl, hok⟩, ?_, hidle⟩
      rw [outBytes_cons, hout, hacrc]
      rfl

/-- An idle unit answers TX.FRAME's operations with OK and emits the frame. -/
theorem issueAll_txFrameOps {s : State} (hidle : s.txBusy = false) (cmd seq : Byte) {p : List Byte}
    (hp : p.length ≤ 65535) :
    ∃ t rs, issueAll (txFrameOps cmd seq p) s = some (t, rs) ∧ (∀ r ∈ rs, r.status = .ok) ∧
      outBytes rs = frameBytes cmd seq p ∧ t.txBusy = false := by
  by_cases hempty : p = []
  · subst hempty
    have hissue : issue (.txStart cmd seq 0#16) s = some (_, _) :=
      issue_of_exec (exec_txStart_of_zero hidle cmd seq) rfl
    exact ⟨_, _, issueAll_cons hissue rfl, by simp, List.append_nil _, rfl⟩
  · have hpos : 0 < p.length := List.length_pos_iff.mpr hempty
    have hlen := toNat_ofNat_length hp
    have hne : BitVec.ofNat 16 p.length ≠ 0#16 := fun h => by
      rw [h] at hlen
      exact absurd hlen hpos.ne
    obtain ⟨a, hissue, habusy, haneed, hacrc⟩ : ∃ a,
        issue (.txStart cmd seq (BitVec.ofNat 16 p.length)) s =
          some (a, ⟨.ok, 0#32, markerBytes ++ headerBytes cmd seq (BitVec.ofNat 16 p.length)⟩) ∧
        a.txBusy = true ∧ a.txRemaining.toNat = p.length ∧
        a.txCrc = crcRegister Config.crcInit (headerBytes cmd seq (BitVec.ofNat 16 p.length)) :=
      ⟨_, issue_of_exec (exec_txStart_of_ne_zero hidle cmd seq hne) rfl, rfl, hlen, rfl⟩
    obtain ⟨t, rs, hrun, hok, hout, hend⟩ := issueAll_txBytes hempty habusy haneed
    refine ⟨t, _, issueAll_cons hissue hrun, List.forall_mem_cons.mpr ⟨rfl, hok⟩, ?_, hend⟩
    rw [outBytes_cons, hout, hacrc, ← crcRegister_append]
    rfl

/-! ## Among operations of the other units (R61, R144) -/

theorem issue_eq_some_iff {i : Instr} {s t : State} {r : OpResult} :
    issue i s = some (t, r) ↔ exec i s = .next t ∧ t.result = some r := by
  refine ⟨fun h => ?_, fun h => issue_of_exec h.1 h.2⟩
  rw [issue, issueWord, step_encode] at h
  split at h
  · next a ha =>
    obtain ⟨r', hr, heq⟩ := Option.map_eq_some_iff.mp h
    cases heq
    exact ⟨ha, hr⟩
  · cases h
  · cases h

theorem issueAll_cons_eq_some_iff {i : Instr} {ops : List Instr} {s u : State} {rs : List OpResult} :
    issueAll (i :: ops) s = some (u, rs) ↔
      ∃ t r rs', issue i s = some (t, r) ∧ issueAll ops t = some (u, rs') ∧ rs = r :: rs' := by
  simp only [issueAll, Option.bind_eq_bind, Option.bind_eq_some_iff, Prod.exists, Option.some.injEq, Prod.mk.injEq]
  constructor
  · rintro ⟨t, r, hi, u', rs', hops, rfl, rfl⟩
    exact ⟨t, r, rs', hi, hops, rfl⟩
  · rintro ⟨t, r, rs', hi, hops, rfl⟩
    exact ⟨t, r, hi, u, rs', hops, rfl, rfl⟩

/-- A run's `out` bytes are what it adds to the output queue (R62). -/
theorem issueAll_txOut {ops : List Instr} {s t : State} {rs : List OpResult} (h : issueAll ops s = some (t, rs)) :
    t.txOut = s.txOut ++ outBytes rs := by
  induction ops generalizing s rs with
  | nil =>
    cases h
    exact (List.append_nil _).symm
  | cons i ops ih =>
    obtain ⟨a, r, rs', hi, hops, rfl⟩ := issueAll_cons_eq_some_iff.mp h
    obtain ⟨ha, hr⟩ := issue_eq_some_iff.mp hi
    obtain ⟨r', hr', hqueue, _⟩ := exec_txOut ha
    obtain rfl := Option.some.inj (hr.symm.trans hr')
    rw [ih hops, hqueue, outBytes_cons, List.append_assoc]

/-- Each TX operation of `ops` has the status OK among the results `rs`. -/
def TxOpsOk (ops : List Instr) (rs : List OpResult) : Prop :=
  ∀ (k : Nat) (i : Instr), ops[k]? = some i → isTxOp i = true → ∃ r, rs[k]? = some r ∧ r.status = .ok

theorem TxOpsOk.cons {i : Instr} {r : OpResult} {ops : List Instr} {rs : List OpResult}
    (hr : isTxOp i = true → r.status = .ok) (h : TxOpsOk ops rs) : TxOpsOk (i :: ops) (r :: rs) := by
  intro k j hj htx
  cases k with
  | zero =>
    cases hj
    exact ⟨r, rfl, hr htx⟩
  | succ k => exact h k j hj htx

/-- An operation of another unit leaves the TX unit and emits nothing (R61). -/
theorem exec_of_not_txOp {i : Instr} {s t o : State} (hi : isTxOp i = false) (h : exec i s = .next t)
    (hs : withUnit .tx o s = s) :
    ∃ r, t.result = some r ∧ r.out = [] ∧ withUnit .tx o t = t := by
  have hunit : i.cfeUnit ≠ .tx := of_decide_eq_false hi
  obtain ⟨r, hout, hr, ht⟩ := exec_changes_unit_only h
  refine ⟨r, hr, hout.1 hunit, ?_⟩
  rw [ht, withUnit_withResult_right, withUnit_comm _ hunit.symm, hs]

/-- The TX operations of a run do what they do when issued alone from a state with the same TX unit (R61). -/
theorem issueAll_of_filter_txOp {ops : List Instr} {s o o' : State} {rs' : List OpResult} (hs : Inv s)
    (ho : withUnit .tx o s = s) (halone : issueAll (ops.filter isTxOp) o = some (o', rs'))
    (hok : ∀ r ∈ rs', r.status = .ok) :
    ∃ t rs, issueAll ops s = some (t, rs) ∧ TxOpsOk ops rs ∧ outBytes rs = outBytes rs' ∧
      withUnit .tx o' t = t := by
  induction ops generalizing s o rs' with
  | nil =>
    cases halone
    exact ⟨s, [], rfl, nofun, rfl, ho⟩
  | cons i ops ih =>
    cases hi : isTxOp i with
    | false =>
      rw [List.filter_cons_of_neg (by simp [hi])] at halone
      obtain ⟨a, ha⟩ := exec_answers hs i
      obtain ⟨r, hr, hout, hkept⟩ := exec_of_not_txOp hi ha ho
      obtain ⟨t, rs, hrun, htx, hbytes, ht⟩ := ih (exec_keeps_inv hs ha) hkept halone hok
      refine ⟨t, r :: rs, issueAll_cons (issue_of_exec ha hr) hrun, htx.cons (by simp [hi]), ?_, ht⟩
      rw [outBytes_cons, hout, hbytes, List.nil_append]
    | true =>
      rw [List.filter_cons_of_pos hi] at halone
      obtain ⟨b, r, rs', hb, hrest, rfl⟩ := issueAll_cons_eq_some_iff.mp halone
      obtain ⟨hb, hr⟩ := issue_eq_some_iff.mp hb
      have hunit : i.cfeUnit = .tx := of_decide_eq_true hi
      obtain ⟨r', _, hr', ha⟩ := exec_actsOnUnit o s i b hb
      obtain rfl := Option.some.inj (hr.symm.trans hr')
      rw [hunit, ho] at ha
      obtain ⟨hrok, hok⟩ := List.forall_mem_cons.mp hok
      obtain ⟨t, rs, hrun, htx, hbytes, ht⟩ := ih (o := b) (exec_keeps_inv hs ha) rfl hrest hok
      refine ⟨t, r :: rs, issueAll_cons (issue_of_exec ha rfl) hrun, htx.cons fun _ => hrok, ?_, ht⟩
      rw [outBytes_cons, hbytes, outBytes_cons]

/-- Settles O29: alone the operations emit the frame, and operations of the other units do not disturb them. -/
theorem txStreamIsTheEncodedFrame : Obligations.TxStreamIsTheEncodedFrame := by
  intro s cmd seq p f ops hs hidle hf hops
  obtain ⟨hp, rfl⟩ := encodeFrame_eq_ok_iff.mp hf
  obtain ⟨o, rs', halone, hok, hout, hend⟩ := issueAll_txFrameOps hidle cmd seq hp
  rw [← hops] at halone
  obtain ⟨t, rs, hrun, htx, hbytes, ht⟩ := issueAll_of_filter_txOp hs (withUnit_self s .tx) halone hok
  refine ⟨t, rs, hrun, htx, hbytes.trans hout, ?_, ?_⟩
  · rw [issueAll_txOut hrun, hbytes, hout]
  · rw [← ht]
    exact hend

end Sys2Proof.Machine

end

section
/-! PROOF. A frame is received (spec/42_synchronizer.md R161 to R172, R177, R178): the marker starts a candidate, the
candidate collects the bytes in order, its last byte makes it held, and the host reads the frame back. -/

namespace Sys2Proof.Machine

/-! ## RX.BYTE with no frame held, state by state (R161 to R163) -/

section
variable {s : State}

theorem exec_rxByte_of_seek1 (hv : s.rxFrameValid = false) (hs : s.rxState = .seek1) (d : Byte) :
    exec (.rxByte d) s = rxSeek1 d s := by
  show execRxByte d s = _
  rw [execRxByte, if_neg (by simp [hv]), hs]

theorem exec_rxByte_of_seek2 (hv : s.rxFrameValid = false) (hs : s.rxState = .seek2) (d : Byte) :
    exec (.rxByte d) s = rxSeek2 d s := by
  show execRxByte d s = _
  rw [execRxByte, if_neg (by simp [hv]), hs]

theorem exec_rxByte_of_collect (hv : s.rxFrameValid = false) (hs : s.rxState = .collect) (d : Byte) :
    exec (.rxByte d) s = rxCollect d s := by
  show execRxByte d s = _
  rw [execRxByte, if_neg (by simp [hv]), hs]

end

/-! ## Collecting a candidate (R163, R164) -/

/-- The candidate in COLLECT consists of the bytes `bytes`. -/
structure Collecting (bytes : List Byte) (s : State) : Prop where
  free : s.rxFrameValid = false
  collect : s.rxState = .collect
  count : s.rxCount.toNat = bytes.length
  cells : rxCells s bytes.length = bytes

/-- The bytes are fewer than the frame they begin, if they declare its length already. -/
def IsShort (bytes : List Byte) : Prop := 4 ≤ bytes.length → bytes.length < 8 + candidateLength bytes

theorem IsShort.of_append {a b : List Byte} (h : IsShort (a ++ b)) : IsShort a := by
  intro ha
  have hab : 4 ≤ (a ++ b).length := by rw [List.length_append]; omega
  have hlt := h hab
  rw [candidateLength_append b ha, List.length_append] at hlt
  omega

/-- A candidate has at most 65543 bytes, so a short one leaves a cell free (R29). -/
theorem IsShort.length_lt {bytes : List Byte} (h : IsShort bytes) : bytes.length < 65543 := by
  by_cases h4 : 4 ≤ bytes.length
  · have hbound : candidateLength bytes < 65536 := BitVec.isLt _
    have hlt := h h4
    omega
  · omega

/-- Until the last byte of its CRC a frame is short. -/
theorem isShort_frameBody_append (cmd seq : Byte) {p crc : List Byte} (hp : p.length ≤ 65535) (h : crc.length < 4) :
    IsShort (frameBody cmd seq p ++ crc) := by
  intro _
  have hbody := length_frameBody cmd seq p
  rw [candidateLength_append _ (by omega), candidateLength_frameBody cmd seq hp, List.length_append]
  omega

/-- An append puts its byte behind the collected ones. -/
theorem rxCells_rxAppend (d : Byte) {s : State} {k : Nat} (h : s.rxCount.toNat = k) :
    rxCells (rxAppend d s) (k + 1) = rxCells s k ++ [d] := by
  have hbelow : rxCells (rxAppend d s) k = rxCells s k :=
    rxCells_congr fun i hi => by rw [rxCell_rxAppend, if_neg (by omega)]
  rw [← hbelow]
  simp [rxCells, List.range_succ, rxCell_rxAppend, h]

theorem Collecting.append {bytes : List Byte} {s : State} (h : Collecting bytes s) (hlt : bytes.length < 65543)
    (d : Byte) : Collecting (bytes ++ [d]) (rxAppend d s) := by
  refine ⟨h.free, h.collect, ?_, ?_⟩
  · rw [rxAppend_rxCount_toNat d (h.count.trans_lt hlt), h.count, List.length_append]
    rfl
  · rw [List.length_append]
    exact (rxCells_rxAppend d h.count).trans (by rw [h.cells])

/-- The completion check asks whether the collected bytes are a candidate of `decodeOne` (R133, R164). -/
theorem rxComplete_iff_of_collecting {bytes : List Byte} {s : State} (h : Collecting bytes s) :
    rxComplete s = true ↔ 4 ≤ bytes.length ∧ isCandidate bytes = true := by
  rw [rxComplete_iff, h.count, isCandidate_iff]
  refine and_congr_right fun h4 => ?_
  rw [rxExpect, ← candidateLength_rxCells s h4, h.cells]

/-- A byte in COLLECT is appended, and the check follows (R163, R167). -/
theorem exec_rxByte_of_collecting {bytes : List Byte} {s : State} (h : Collecting bytes s)
    (hlt : bytes.length < 65543) (d : Byte) : exec (.rxByte d) s = rxCheck (rxAppend d s) := by
  have hroom : s.rxCount.toNat < Config.rxCap := h.count.trans_lt hlt
  exact (exec_rxByte_of_collect h.free h.collect d).trans (if_pos hroom)

theorem exec_rxByte_of_short {bytes : List Byte} {s : State} {d : Byte} (h : Collecting bytes s)
    (hshort : IsShort (bytes ++ [d])) : exec (.rxByte d) s = retEvent .collect (rxAppend d s) := by
  have hlt := hshort.of_append.length_lt
  have hmore : ¬ rxComplete (rxAppend d s) = true := by
    rw [rxComplete_iff_of_collecting (h.append hlt d), isCandidate_iff]
    exact fun hc => (hshort hc.1).ne hc.2
  rw [exec_rxByte_of_collecting h hlt]
  exact if_neg hmore

/-- Bytes that do not complete the candidate are collected (R164). -/
theorem issueAll_rxFeedOps_of_short {bytes rest : List Byte} {s : State} (h : Collecting bytes s)
    (hshort : IsShort (bytes ++ rest)) :
    ∃ t, issueAll (rxFeedOps rest) s = some (t, List.replicate rest.length ⟨.ok, 4#32, []⟩) ∧
      Collecting (bytes ++ rest) t := by
  induction rest generalizing bytes s with
  | nil => exact ⟨s, rfl, (List.append_nil bytes).symm ▸ h⟩
  | cons d rest ih =>
    rw [List.append_cons] at hshort ⊢
    have hnext := h.append hshort.of_append.of_append.length_lt d
    obtain ⟨a, hissue, ha⟩ : ∃ a, issue (.rxByte d) s = some (a, ⟨.ok, 4#32, []⟩) ∧
        Collecting (bytes ++ [d]) a :=
      ⟨_, issue_of_exec (exec_rxByte_of_short h hshort.of_append) rfl, hnext.free, hnext.collect, hnext.count,
        hnext.cells⟩
    obtain ⟨t, hrun, ht⟩ := ih ha hshort
    exact ⟨t, issueAll_cons hissue hrun, ht⟩

/-- The byte that completes a valid candidate makes it held (R165). -/
theorem issue_rxByte_of_complete {bytes p : List Byte} {s : State} {d cmd seq : Byte} (h : Collecting bytes s)
    (hlt : bytes.length < 65543) (hcand : isCandidate (bytes ++ [d]) = true)
    (hframe : decodeOne (bytes ++ [d]) = .frame cmd seq p) :
    ∃ t, issue (.rxByte d) s = some (t, ⟨.ok, 5#32, []⟩) ∧ t.rxFrameValid = true ∧ t.rxState = .seek1 ∧
      rxCells t (bytes ++ [d]).length = bytes ++ [d] := by
  have hnext := h.append hlt d
  have h4 : 4 ≤ (bytes ++ [d]).length := by rw [isCandidate_iff.mp hcand]; omega
  have hcomplete : rxComplete (rxAppend d s) = true := (rxComplete_iff_of_collecting hnext).mpr ⟨h4, hcand⟩
  have hexec : exec (.rxByte d) s =
      retEvent .frameOk { rxAppend d s with rxState := .seek1, rxFrameValid := true } := by
    rw [exec_rxByte_of_collecting h hlt, rxCheck, if_pos hcomplete, hnext.count, hnext.cells, hframe]
  exact ⟨_, issue_of_exec hexec rfl, rfl, rfl, hnext.cells⟩

/-- The marker starts an empty candidate (R161, R162). -/
theorem issueAll_rxFeedOps_markerBytes {s : State} (hv : s.rxFrameValid = false) (hs : s.rxState = .seek1) :
    ∃ t, issueAll (rxFeedOps markerBytes) s = some (t, [⟨.ok, 1#32, []⟩, ⟨.ok, 2#32, []⟩]) ∧
      Collecting [] t := by
  obtain ⟨a, hissue, hav, has⟩ : ∃ a, issue (.rxByte Config.marker1) s = some (a, ⟨.ok, 1#32, []⟩) ∧
      a.rxFrameValid = false ∧ a.rxState = .seek2 :=
    ⟨_, issue_of_exec ((exec_rxByte_of_seek1 hv hs _).trans (if_pos rfl)) rfl, hv, rfl⟩
  obtain ⟨t, hissue', ht⟩ : ∃ t, issue (.rxByte Config.marker2) a = some (t, ⟨.ok, 2#32, []⟩) ∧
      Collecting [] t :=
    ⟨_, issue_of_exec ((exec_rxByte_of_seek2 hav has _).trans (if_pos rfl)) rfl, hav, rfl, rfl, rfl⟩
  exact ⟨t, issueAll_cons hissue (issueAll_cons hissue' rfl), ht⟩

/-- The marker and a valid candidate behind it: every byte but the last is collected (R161 to R165). -/
theorem issueAll_rxFeedOps_of_candidate {bytes p : List Byte} {s : State} {d cmd seq : Byte}
    (hv : s.rxFrameValid = false) (hs : s.rxState = .seek1) (hshort : IsShort bytes)
    (hcand : isCandidate (bytes ++ [d]) = true) (hframe : decodeOne (bytes ++ [d]) = .frame cmd seq p) :
    ∃ t, issueAll (rxFeedOps (markerBytes ++ bytes ++ [d])) s = some (t, [⟨.ok, 1#32, []⟩, ⟨.ok, 2#32, []⟩] ++
        List.replicate bytes.length ⟨.ok, 4#32, []⟩ ++ [⟨.ok, 5#32, []⟩]) ∧
      t.rxFrameValid = true ∧ t.rxState = .seek1 ∧ rxCells t (bytes ++ [d]).length = bytes ++ [d] := by
  obtain ⟨a, hmarker, ha⟩ := issueAll_rxFeedOps_markerBytes hv hs
  obtain ⟨b, hcollect, hb⟩ := issueAll_rxFeedOps_of_short ha hshort
  obtain ⟨t, hlast, ht⟩ := issue_rxByte_of_complete hb hshort.length_lt hcand hframe
  refine ⟨t, ?_, ht⟩
  rw [rxFeedOps, List.map_append, List.map_append]
  exact issueAll_append (issueAll_append hmarker hcollect) (issueAll_cons hlast rfl)

/-! ## The held frame, and its bytes (R165, R177) -/

/-- The frame (cmd, seq, p) is held. -/
structure HoldsFrame (cmd seq : Byte) (p : List Byte) (s : State) : Prop where
  valid : s.rxFrameValid = true
  seek1 : s.rxState = .seek1
  body : rxCells s (4 + p.length) = frameBody cmd seq p

/-- From SEEK1 with no frame held, the bytes of a frame are received (R178). -/
theorem issueAll_rxFeedOps_frameBytes {s : State} (hv : s.rxFrameValid = false) (hs : s.rxState = .seek1)
    (cmd seq : Byte) {p : List Byte} (hp : p.length ≤ 65535) :
    ∃ t, issueAll (rxFeedOps (frameBytes cmd seq p)) s = some (t, [⟨.ok, 1#32, []⟩, ⟨.ok, 2#32, []⟩] ++
        List.replicate (7 + p.length) ⟨.ok, 4#32, []⟩ ++ [⟨.ok, 5#32, []⟩]) ∧
      HoldsFrame cmd seq p t := by
  obtain ⟨w0, w1, w2, w3, hcrc⟩ : ∃ w0 w1 w2 w3, bytesLE32 (crc32 (frameBody cmd seq p)) = [w0, w1, w2, w3] :=
    ⟨_, _, _, _, rfl⟩
  have hsplit : frameBody cmd seq p ++ bytesLE32 (crc32 (frameBody cmd seq p)) =
      frameBody cmd seq p ++ [w0, w1, w2] ++ [w3] := by
    rw [hcrc, List.append_assoc]
    rfl
  have hlen : (frameBody cmd seq p ++ [w0, w1, w2]).length = 7 + p.length := by
    rw [List.length_append, length_frameBody]
    exact Nat.add_right_comm 4 _ 3
  have hshort : IsShort (frameBody cmd seq p ++ [w0, w1, w2]) := isShort_frameBody_append cmd seq hp (by simp)
  obtain ⟨hcand, hdecode⟩ := decodeOneInvertsEncode cmd seq p _ (encodeFrame_eq_ok_iff.mpr ⟨hp, rfl⟩)
  rw [drop_two_frameBytes, hsplit] at hcand hdecode
  obtain ⟨t, hrun, htv, hts, htcells⟩ := issueAll_rxFeedOps_of_candidate hv hs hshort hcand hdecode
  refine ⟨t, ?_, htv, hts, ?_⟩
  · rwa [frameBytes, List.append_assoc, hsplit, ← List.append_assoc, ← hlen]
  · rw [← hsplit] at htcells
    have hle : 4 + p.length ≤ (frameBody cmd seq p ++ bytesLE32 (crc32 (frameBody cmd seq p))).length := by
      rw [List.length_append, length_frameBody]
      omega
    rw [← take_rxCells t hle, htcells, List.take_left' (length_frameBody cmd seq p)]

section
variable {cmd seq : Byte} {p : List Byte} {s : State}

/-- The cells below the CRC hold header and payload. -/
theorem HoldsFrame.rxCell_eq (h : HoldsFrame cmd seq p s) {i : Nat} (hi : i < 4 + p.length) :
    rxCell s i = byteAt (frameBody cmd seq p) i := by
  rw [← h.body, byteAt_rxCells s hi]

theorem HoldsFrame.rxLength_eq (h : HoldsFrame cmd seq p s) : rxLength s = BitVec.ofNat 16 p.length := by
  rw [rxLength, h.rxCell_eq (by omega), h.rxCell_eq (by omega)]
  exact le16_len _

theorem HoldsFrame.payload_eq (h : HoldsFrame cmd seq p s) :
    (List.range p.length).map (fun k => rxCell s (4 + k)) = p := by
  refine List.ext_getElem (by simp) fun k _ hk => ?_
  have hbyte : byteAt (frameBody cmd seq p) (4 + k) = byteAt p k := byteAt_append_right rfl
  rw [List.getElem_map, List.getElem_range, h.rxCell_eq (by omega), hbyte]
  simp [byteAt, hk]

theorem holdsFrame_withResult (h : HoldsFrame cmd seq p s) (r : OpResult) :
    HoldsFrame cmd seq p (withResult r s) :=
  ⟨h.valid, h.seek1, h.body⟩

/-! ## Reading it (R171, R172, R177) -/

/-- The header word is the TX.START operand of the same header (R85, R171). -/
theorem le32_header (cmd seq : Byte) (len : Len) :
    le32 cmd seq (lenLow len) (lenHigh len) = operandH cmd seq len := by
  apply BitVec.eq_of_getLsbD_eq
  intro k hk
  simp only [le32_getLsbD _ _ _ _ _ hk, operandH_getLsbD, lenLow, lenHigh, BitVec.getLsbD_extractLsb']
  by_cases h16 : k < 16
  · simp [h16]
  · by_cases h24 : k < 24
    · simp [h16, h24, show k - 16 < 8 by omega]
    · simp [h16, h24, show k - 24 < 8 by omega, show 8 + (k - 24) = k - 16 by omega]

theorem HoldsFrame.issue_rxReadhdr (h : HoldsFrame cmd seq p s) :
    ∃ t, issue .rxReadhdr s = some (t, ⟨.ok, operandH cmd seq (BitVec.ofNat 16 p.length), []⟩) ∧
      HoldsFrame cmd seq p t := by
  have hheader : le32 (rxCell s 0) (rxCell s 1) (rxCell s 2) (rxCell s 3) =
      operandH cmd seq (BitVec.ofNat 16 p.length) := by
    rw [h.rxCell_eq (by omega), h.rxCell_eq (by omega), h.rxCell_eq (by omega), h.rxCell_eq (by omega)]
    exact le32_header cmd seq _
  have hexec : exec .rxReadhdr s = ret .ok (operandH cmd seq (BitVec.ofNat 16 p.length)) [] s := by
    rw [← hheader]
    exact if_pos h.valid
  exact ⟨_, issue_of_exec hexec rfl, holdsFrame_withResult h _⟩

theorem HoldsFrame.issue_rxPeek (h : HoldsFrame cmd seq p s) (hp : p.length ≤ 65535) {k : Nat} (hk : k < p.length) :
    issue (.rxPeek (BitVec.ofNat 16 k)) s =
      some (withResult ⟨.ok, zext32 (rxCell s (4 + k)), []⟩ s, ⟨.ok, zext32 (rxCell s (4 + k)), []⟩) := by
  have hidx : (BitVec.ofNat 16 k).toNat = k := toNat_ofNat_length (by omega)
  have hindex : (BitVec.ofNat 16 k).toNat < (rxLength s).toNat := by
    rwa [h.rxLength_eq, toNat_ofNat_length hp, hidx]
  have hexec : exec (.rxPeek (BitVec.ofNat 16 k)) s =
      ret .ok (zext32 (rxCell s (4 + (BitVec.ofNat 16 k).toNat))) [] s := (if_pos h.valid).trans (if_pos hindex)
  rw [hidx] at hexec
  exact issue_of_exec hexec rfl

theorem HoldsFrame.peekAll_eq (h : HoldsFrame cmd seq p s) (hp : p.length ≤ 65535) {ks : List Nat}
    (hks : ∀ k ∈ ks, k < p.length) :
    ∃ t, peekAll ks s = some (t, ks.map fun k => rxCell s (4 + k)) ∧ HoldsFrame cmd seq p t := by
  induction ks generalizing s with
  | nil => exact ⟨s, rfl, h⟩
  | cons k ks ih =>
    obtain ⟨hk, hks⟩ := List.forall_mem_cons.mp hks
    obtain ⟨t, hrest, ht⟩ := ih (holdsFrame_withResult h ⟨.ok, zext32 (rxCell s (4 + k)), []⟩) hks
    refine ⟨t, ?_, ht⟩
    have hdata : (zext32 (rxCell s (4 + k))).setWidth 8 = rxCell s (4 + k) := by simp [zext32]
    simp [peekAll, h.issue_rxPeek hp hk, hrest, hdata]

/-- The host reads the held frame back. -/
theorem HoldsFrame.readFrame_eq (h : HoldsFrame cmd seq p s) (hp : p.length ≤ 65535) :
    ∃ t, readFrame s = some (t, ⟨cmd, seq, p⟩) ∧ HoldsFrame cmd seq p t := by
  obtain ⟨a, hheader, ha⟩ := h.issue_rxReadhdr
  obtain ⟨t, hpayload, ht⟩ := ha.peekAll_eq hp fun k hk => List.mem_range.mp hk
  rw [ha.payload_eq] at hpayload
  refine ⟨t, ?_, ht⟩
  simp [readFrame, hheader, operandH_cmd, operandH_seq, operandH_len, toNat_ofNat_length hp, hpayload,
    -BitVec.extractLsb'_toNat]

end

/-- Settles O41: the frame is held after its last byte, and the reads return its parts. -/
theorem encodedFrameIsReceived : Obligations.EncodedFrameIsReceived := by
  intro s cmd seq p f hv hs hf
  obtain ⟨hp, rfl⟩ := encodeFrame_eq_ok_iff.mp hf
  obtain ⟨t, hrun, ht⟩ := issueAll_rxFeedOps_frameBytes hv hs cmd seq hp
  obtain ⟨u, hheader, _⟩ := ht.issue_rxReadhdr
  obtain ⟨v, hread, _⟩ := ht.readFrame_eq hp
  exact ⟨t, _, u, v, hrun, rfl, ht.valid, hheader, hread⟩

end Sys2Proof.Machine

end

section
/-! PROOF. The statements about the synchronizer (spec/42_synchronizer.md R161 to R176): what each operation of the RX
unit answers; then lists of bytes that the host feeds (R179, R180), and the host that scans for frames (R179). -/

namespace Sys2Proof.Machine

/-! ## RX.BYTE (R161 to R167, R170) -/

section
variable {s : State}

theorem exec_rxByte_of_held (hv : s.rxFrameValid = true) (d : Byte) :
    exec (.rxByte d) s = .next { s with result := some ⟨.busy, 0#32, []⟩ } :=
  (if_pos hv).trans (raise_eq _ _)

/-- With a cell left the byte is appended, and the check follows (R163). -/
theorem exec_rxByte_of_room (hv : s.rxFrameValid = false) (hs : s.rxState = .collect) (hc : s.rxCount.toNat < 65543)
    (d : Byte) : exec (.rxByte d) s = rxCheck (rxAppend d s) :=
  (exec_rxByte_of_collect hv hs d).trans (if_pos hc)

/-- The completion check reads the counter after the append (R164). -/
theorem rxComplete_rxAppend_iff (hc : s.rxCount.toNat < 65543) (d : Byte) :
    rxComplete (rxAppend d s) = true ↔
      4 ≤ s.rxCount.toNat + 1 ∧ s.rxCount.toNat + 1 = rxExpect (rxAppend d s) := by
  rw [rxComplete_iff, rxAppend_rxCount_toNat d hc]

end

/-- Settles O30: format B, and the held frame is tested before anything else. -/
theorem rxByteIsBusyWhileHeld : Obligations.RxByteIsBusyWhileHeld :=
  ⟨fun x => (decode_opWord (.rxByte 0#8) x).trans (if_congr and_reservedMask_b rfl rfl),
    fun _ d hv => exec_rxByte_of_held hv d⟩

/-- Settles O31: the two branches of SEEK1. -/
theorem rxByteInSeek1 : Obligations.RxByteInSeek1 := fun _ d hv hs =>
  (exec_rxByte_of_seek1 hv hs d).trans (if_congr Iff.rfl (ret_nil_eq _ _ _) (ret_nil_eq _ _ _))

/-- Settles O32: the two branches of SEEK2. -/
theorem rxByteInSeek2 : Obligations.RxByteInSeek2 := fun _ d hv hs =>
  (exec_rxByte_of_seek2 hv hs d).trans (if_congr Iff.rfl (ret_nil_eq _ _ _) (ret_nil_eq _ _ _))

/-- Settles O33: an append, and the three outcomes of the completion check. -/
theorem rxByteInCollect : Obligations.RxByteInCollect := by
  intro s d hv hs hc
  have hcount := rxAppend_rxCount_toNat d hc
  have hcomplete := rxComplete_rxAppend_iff hc d
  have hstored : rxCell (rxAppend d s) s.rxCount.toNat = d := by rw [rxCell_rxAppend, if_pos rfl]
  have hkept (a : Nat) (ha : a ≠ s.rxCount.toNat) : rxCell (rxAppend d s) a = rxCell s a := by
    rw [rxCell_rxAppend, if_neg ha]
  obtain ⟨t, hcheck⟩ := rxCheck_next (rxAppend d s)
  have hnext := (exec_rxByte_of_room hv hs hc d).trans hcheck
  obtain ⟨hcrc, htx, hout, _⟩ := execRxByte_frame hnext
  obtain ⟨hmore, heq⟩ | ⟨hfull, ⟨cmd, seq, p, hframe⟩, heq⟩ | ⟨hfull, hbad, heq⟩ := rxCheck_cases (rxAppend d s) <;>
    cases hcheck.symm.trans heq
  · exact ⟨_, hnext, hstored, hkept, hcrc, htx, hout, fun _ => ⟨hs, hcount, hv, rfl⟩,
      fun hdone => absurd (hmore.symm.trans (hcomplete.mpr hdone)) (by decide)⟩
  · rw [hcount] at hframe
    exact ⟨_, hnext, hstored, hkept, hcrc, htx, hout, fun hmore => absurd (hcomplete.mp hfull) hmore,
      fun _ => ⟨fun _ _ _ _ => ⟨rfl, hcount, rfl, rfl⟩, fun hbad => nomatch hframe.symm.trans hbad⟩⟩
  · rw [hcount] at hbad
    exact ⟨_, hnext, hstored, hkept, hcrc, htx, hout, fun hmore => absurd (hcomplete.mp hfull) hmore,
      fun _ => ⟨fun _ _ _ hframe => (nomatch hbad.symm.trans hframe), fun _ => ⟨rfl, rfl, hv, rfl⟩⟩⟩

/-- Settles O40: one case for each transition, and BUSY returns no event. -/
theorem rxEventCodesSayTheTransition : Obligations.RxEventCodesSayTheTransition := by
  intro s t d r h hr hok
  obtain ⟨_, rfl⟩ | ⟨hv, hs, hd, rfl⟩ | ⟨hv, hs, hd, rfl⟩ | ⟨hv, hs, _, rfl⟩ | ⟨hv, hs, _, rfl⟩ |
    ⟨hv, hs, _, ⟨_, rfl⟩ | ⟨_, _, rfl⟩ | ⟨_, rfl⟩⟩ := execRxByte_cases h <;> cases hr
  case inl => cases hok
  all_goals simp [*]

/-! ## The other operations of the RX unit (R171 to R175) -/

theorem lenLow_le16 (a b : Byte) : lenLow (le16 a b) = a := by
  apply BitVec.eq_of_getLsbD_eq
  intro k hk
  rw [lenLow, BitVec.getLsbD_extractLsb', le16_getLsbD _ _ _ (by omega)]
  simp [hk]

theorem lenHigh_le16 (a b : Byte) : lenHigh (le16 a b) = b := by
  apply BitVec.eq_of_getLsbD_eq
  intro k hk
  rw [lenHigh, BitVec.getLsbD_extractLsb', le16_getLsbD _ _ _ (by omega)]
  simp [hk]

/-- The four header bytes as a word are a TX.START operand (R85, R171). -/
theorem le32_eq_operandH (a b c d : Byte) : le32 a b c d = operandH a b (le16 c d) := by
  rw [← le32_header, lenLow_le16, lenHigh_le16]

/-- Settles O35: format N, and the header word is the four header bytes. -/
theorem rxReadhdrReturnsHeader : Obligations.RxReadhdrReturnsHeader := by
  refine ⟨fun x => (decode_opWord .rxReadhdr x).trans (if_congr and_reservedMask_n rfl rfl),
    fun s hv => (if_neg (by simp [hv])).trans (raise_eq _ _),
    fun s hv => ⟨le32 (rxCell s 0) (rxCell s 1) (rxCell s 2) (rxCell s 3), (if_pos hv).trans (ret_nil_eq _ _ _), ?_⟩⟩
  obtain ⟨hcmd, hseq, hlow, hhigh⟩ := le32_bytes (rxCell s 0) (rxCell s 1) (rxCell s 2) (rxCell s 3)
  have hoperand := le32_eq_operandH (rxCell s 0) (rxCell s 1) (rxCell s 2) (rxCell s 3)
  exact ⟨hcmd, hseq, hlow, hhigh, by rw [hoperand, operandH_len], hoperand⟩

/-- Settles O36: format I, and the two tests before the read. -/
theorem rxPeekReturnsPayloadByte : Obligations.RxPeekReturnsPayloadByte :=
  ⟨fun x => (decode_opWord (.rxPeek 0#16) x).trans (if_congr and_reservedMask_i rfl rfl),
    fun _ _ hv => (if_neg (by simp [hv])).trans (raise_eq _ _),
    fun _ _ hv hidx => (if_pos hv).trans ((if_neg (Nat.not_lt.mpr hidx)).trans (raise_eq _ _)),
    fun _ _ hv hidx => (if_pos hv).trans ((if_pos hidx).trans (ret_nil_eq _ _ _))⟩

theorem exec_rxRelease_of_held {s : State} (hv : s.rxFrameValid = true) :
    exec .rxRelease s =
      .next { s with rxFrameValid := false, rxCount := 0#17, result := some ⟨.ok, 0#32, []⟩ } :=
  (congrArg (ret .ok 0#32 []) (if_pos hv)).trans (ret_nil_eq _ _ _)

/-- Settles O37: format N, and only a held frame is freed. -/
theorem rxReleaseFreesHeldFrame : Obligations.RxReleaseFreesHeldFrame :=
  ⟨fun x => (decode_opWord .rxRelease x).trans (if_congr and_reservedMask_n rfl rfl),
    fun _ hv => exec_rxRelease_of_held hv,
    fun _ hv => (congrArg (ret .ok 0#32 []) (if_neg (by simp [hv]))).trans (ret_nil_eq _ _ _)⟩

/-- Settles O38: format N, and the operation sets three registers. -/
theorem rxResetReturnsToSeek1 : Obligations.RxResetReturnsToSeek1 :=
  ⟨fun x => (decode_opWord .rxReset x).trans (if_congr and_reservedMask_n rfl rfl), fun _ => ret_nil_eq _ _ _⟩

theorem rxStatusWord_getLsbD (s : State) {k : Nat} (hk : k < 32) :
    (rxStatusWord s).getLsbD k =
      if k < 2 then (rxStateCode s.rxState).getLsbD k else if k = 2 then s.rxFrameValid
      else if k < 15 then false else s.rxCount.getLsbD (k - 15) := by
  simp only [rxStatusWord, flagWord, BitVec.getLsbD_or, BitVec.getLsbD_shiftLeft, BitVec.getLsbD_setWidth,
    BitVec.getLsbD_ofBool]
  by_cases h2 : k < 2
  · simp [h2, hk, show k < 15 by omega]
  · have hcode := BitVec.getLsbD_of_ge (rxStateCode s.rxState) k (by omega)
    by_cases hv : k = 2
    · simp [hv]
    · by_cases h15 : k < 15
      · simp [h2, hv, h15, hcode, show k - 2 ≠ 0 by omega]
      · simp [h2, hv, h15, hk, hcode, show k - 2 ≠ 0 by omega, show k - 15 < 32 by omega]

/-- Settles O39: format N, and the bits of the status word. -/
theorem rxStatusShowsStateAndCount : Obligations.RxStatusShowsStateAndCount := by
  refine ⟨fun x => (decode_opWord .rxStatus x).trans (if_congr and_reservedMask_n rfl rfl),
    fun s => ⟨_, ret_nil_eq _ _ _, ?state, rxStatusWord_getLsbD s (by decide), ?zeros, ?count⟩⟩
  case state =>
    have hcode : (rxStatusWord s).extractLsb' 0 2 = rxStateCode s.rxState := by
      apply BitVec.eq_of_getLsbD_eq
      intro k hk
      rw [BitVec.getLsbD_extractLsb', rxStatusWord_getLsbD s (by omega), if_pos (by omega)]
      simp [hk]
    exact hcode
  case zeros =>
    apply BitVec.eq_of_getLsbD_eq
    intro k hk
    rw [BitVec.getLsbD_extractLsb', rxStatusWord_getLsbD s (by omega), if_neg (by omega), if_neg (by omega),
      if_pos (by omega)]
    simp
  case count =>
    apply BitVec.eq_of_getLsbD_eq
    intro k hk
    rw [BitVec.getLsbD_extractLsb', rxStatusWord_getLsbD s (by omega), if_neg (by omega), if_neg (by omega),
      if_neg (by omega)]
    simp [hk]

/-! ## A held frame, a short candidate (R245, R248) -/

/-- Settles O44: BUSY changes the result alone, so the next byte finds the frame still held. -/
theorem heldFrameRefusesEveryByte : Obligations.HeldFrameRefusesEveryByte := by
  intro s bytes hv
  induction bytes generalizing s with
  | nil => exact ⟨s, rfl, ⟨rfl, ⟨rfl, rfl, rfl⟩, rfl, rfl, rfl, fun _ => rfl⟩, rfl⟩
  | cons d bytes ih =>
    obtain ⟨t, hrun, hsame, hout⟩ := ih { s with result := some ⟨.busy, 0#32, []⟩ } hv
    exact ⟨t, issueAll_cons (issue_of_exec (exec_rxByte_of_held hv d) rfl) hrun, hsame, hout⟩

/-- A candidate with its length bytes declares the length that the unit waits for (R164). -/
theorem Collecting.rxExpect_eq {bytes : List Byte} {s : State} (h : Collecting bytes s) (h4 : 4 ≤ bytes.length) :
    rxExpect s = 8 + candidateLength bytes := by
  rw [rxExpect, ← candidateLength_rxCells s h4, h.cells]

/-- Settles O45: the cells below `rx_count` are the candidate so far, and the new bytes leave it short. -/
theorem shortCandidateStaysInCollect : Obligations.ShortCandidateStaysInCollect := by
  intro s bytes hv hs h4 hless
  have hlen := length_rxCells s s.rxCount.toNat
  have hcollecting : Collecting (rxCells s s.rxCount.toNat) s := ⟨hv, hs, hlen.symm, by rw [hlen]⟩
  generalize rxCells s s.rxCount.toNat = first at hlen hcollecting
  have hexpect := hcollecting.rxExpect_eq (by omega)
  have hdeclared := candidateLength_append bytes (show 4 ≤ first.length by omega)
  have hshort : IsShort (first ++ bytes) := fun _ => by rw [hdeclared, List.length_append]; omega
  obtain ⟨t, hrun, ht⟩ := issueAll_rxFeedOps_of_short hcollecting hshort
  refine ⟨t, hrun, ht.collect, ht.free, by rw [ht.count, List.length_append, hlen], ?_⟩
  rw [ht.rxExpect_eq (by rw [List.length_append]; omega), hdeclared, hexpect]

/-! ## Seeking (R161, R162) -/

/-- No frame is held, and the unit seeks a marker; the flag says that it has taken a 0x55 as EV_MARK1. -/
structure Seeking (after55 : Bool) (s : State) : Prop where
  free : s.rxFrameValid = false
  state : s.rxState = if after55 then .seek2 else .seek1

section
variable {s : State} {d : Byte}

theorem Seeking.issue_marker1 (h : Seeking false s) :
    ∃ t, issue (.rxByte Config.marker1) s = some (t, ⟨.ok, 1#32, []⟩) ∧ Seeking true t :=
  ⟨_, issue_of_exec ((rxByteInSeek1 s _ h.free h.state).trans (if_pos rfl)) rfl, h.free, rfl⟩

theorem Seeking.issue_noise (h : Seeking false s) (hd : d ≠ Config.marker1) :
    ∃ t, issue (.rxByte d) s = some (t, ⟨.ok, 0#32, []⟩) ∧ Seeking false t :=
  ⟨_, issue_of_exec ((rxByteInSeek1 s d h.free h.state).trans (if_neg hd)) rfl, h.free, h.state⟩

theorem Seeking.issue_marker2 (h : Seeking true s) :
    ∃ t, issue (.rxByte Config.marker2) s = some (t, ⟨.ok, 2#32, []⟩) :=
  ⟨_, issue_of_exec ((rxByteInSeek2 s _ h.free h.state).trans (if_pos rfl)) rfl⟩

theorem Seeking.issue_drop (h : Seeking true s) (hd : d ≠ Config.marker2) :
    ∃ t, issue (.rxByte d) s = some (t, ⟨.ok, 3#32, []⟩) ∧ Seeking false t :=
  ⟨_, issue_of_exec ((rxByteInSeek2 s d h.free h.state).trans (if_neg hd)) rfl, h.free, rfl⟩

end

/-- Without a 0x55 every byte is noise (R161). -/
theorem Seeking.issueAll_noise {bytes : List Byte} {s : State} (h : Seeking false s) (hbytes : Config.marker1 ∉ bytes) :
    ∃ t, issueAll (rxFeedOps bytes) s = some (t, List.replicate bytes.length ⟨.ok, 0#32, []⟩) ∧ Seeking false t := by
  induction bytes generalizing s with
  | nil => exact ⟨s, rfl, h⟩
  | cons d bytes ih =>
    obtain ⟨hd, hbytes⟩ := List.ne_and_not_mem_of_not_mem_cons hbytes
    obtain ⟨a, hissue, ha⟩ := h.issue_noise (Ne.symm hd)
    obtain ⟨t, hrun, ht⟩ := ih ha hbytes
    exact ⟨t, issueAll_cons hissue hrun, ht⟩

theorem length_frameBytes (cmd seq : Byte) (p : List Byte) : (frameBytes cmd seq p).length = 10 + p.length := by
  rw [frameBytes, List.length_append, List.length_append, length_frameBody, ← Nat.add_assoc]
  exact Nat.add_right_comm 6 _ 4

/-- Settles O43: the frame's 0x55 is dropped in SEEK2, and behind it there is only noise. -/
theorem strayMarkerByteLosesTheFrame : Obligations.StrayMarkerByteLosesTheFrame := by
  intro s cmd seq p f hv hs hf hrest
  obtain ⟨_, rfl⟩ := encodeFrame_eq_ok_iff.mp hf
  obtain ⟨a, hmark, ha⟩ := Seeking.issue_marker1 ⟨hv, hs⟩
  obtain ⟨b, hdrop, hb⟩ := ha.issue_drop (d := Config.marker1) (by decide)
  have hnoise : Config.marker1 ∉ (frameBytes cmd seq p).drop 1 := List.not_mem_cons_of_ne_of_not_mem (by decide) hrest
  obtain ⟨t, hrun, ht⟩ := hb.issueAll_noise hnoise
  have hlen : ((frameBytes cmd seq p).drop 1).length = 9 + p.length := by
    rw [List.length_drop, length_frameBytes]; omega
  rw [hlen] at hrun
  exact ⟨t, issueAll_cons hmark (issueAll_cons hdrop hrun), ht.state, ht.free⟩

/-! ## Clean garbage (R179) -/

/-- The walk of `cleanFrom` follows the synchronizer: a byte starts a candidate and is not clean, or the unit seeks on
from where the walk goes on. -/
theorem Seeking.issue_rxByte {after55 : Bool} {s : State} (h : Seeking after55 s) (d : Byte) (rest : List Byte) :
    ∃ t r, issue (.rxByte d) s = some (t, r) ∧ r.data ≠ eventData .frameOk ∧
      ((r.data = eventData .mark2 ∧ cleanFrom after55 (d :: rest) = false) ∨
        (r.data ≠ eventData .mark2 ∧ ∃ b, Seeking b t ∧ cleanFrom after55 (d :: rest) = cleanFrom b rest)) := by
  cases after55 with
  | false =>
    by_cases hd : d = Config.marker1
    · subst hd
      obtain ⟨t, hissue, ht⟩ := h.issue_marker1
      exact ⟨t, _, hissue, by decide, .inr ⟨by decide, true, ht, rfl⟩⟩
    · obtain ⟨t, hissue, ht⟩ := h.issue_noise hd
      exact ⟨t, _, hissue, by decide, .inr ⟨by decide, false, ht, by simp [cleanFrom, hd]⟩⟩
  | true =>
    by_cases hd : d = Config.marker2
    · subst hd
      obtain ⟨t, hissue⟩ := h.issue_marker2
      exact ⟨t, _, hissue, by decide, .inl ⟨rfl, if_pos rfl⟩⟩
    · obtain ⟨t, hissue, ht⟩ := h.issue_drop hd
      exact ⟨t, _, hissue, by decide, .inr ⟨by decide, false, ht, if_neg hd⟩⟩

/-- Clean bytes start no candidate, complete no frame and end in SEEK1. -/
theorem Seeking.issueAll_of_cleanFrom {bytes : List Byte} {after55 : Bool} {s : State} (h : Seeking after55 s)
    (hclean : cleanFrom after55 bytes = true) :
    ∃ t rs, issueAll (rxFeedOps bytes) s = some (t, rs) ∧
      (∀ r ∈ rs, r.data ≠ eventData .mark2 ∧ r.data ≠ eventData .frameOk) ∧ Seeking false t := by
  induction bytes generalizing after55 s with
  | nil =>
    cases after55 with
    | false => exact ⟨s, [], rfl, nofun, h⟩
    | true => cases hclean
  | cons d bytes ih =>
    obtain ⟨a, r, hissue, hframe, ⟨_, hnot⟩ | ⟨hmark, b, ha, hwalk⟩⟩ := h.issue_rxByte d bytes
    · cases hclean.symm.trans hnot
    · obtain ⟨t, rs, hrun, hevents, ht⟩ := ih ha (hwalk.symm.trans hclean)
      exact ⟨t, r :: rs, issueAll_cons hissue hrun, List.forall_mem_cons.mpr ⟨⟨hmark, hframe⟩, hevents⟩, ht⟩

/-- Bytes that start no candidate and end in SEEK1 are clean. -/
theorem Seeking.cleanFrom_of_issueAll {bytes : List Byte} {after55 : Bool} {s t : State} {rs : List OpResult}
    (h : Seeking after55 s) (hrun : issueAll (rxFeedOps bytes) s = some (t, rs))
    (hevents : ∀ r ∈ rs, r.data ≠ eventData .mark2) (ht : t.rxState = .seek1) : cleanFrom after55 bytes = true := by
  induction bytes generalizing after55 s rs with
  | nil =>
    cases hrun
    cases after55 with
    | false => rfl
    | true => cases h.state.symm.trans ht
  | cons d bytes ih =>
    obtain ⟨a, r, rs, hissue, hrest, rfl⟩ := issueAll_cons_eq_some_iff.mp hrun
    obtain ⟨hevent, hevents⟩ := List.forall_mem_cons.mp hevents
    obtain ⟨a', r', hissue', _, ⟨hmark, _⟩ | ⟨_, b, ha, hwalk⟩⟩ := h.issue_rxByte d bytes <;>
      cases hissue.symm.trans hissue'
    · exact absurd hmark hevent
    · exact hwalk.trans (ih ha hrest hevents)

theorem isClean_of_not_mem {bytes : List Byte} (h : Config.marker1 ∉ bytes) : isClean bytes = true := by
  unfold isClean
  induction bytes with
  | nil => rfl
  | cons d bytes ih =>
    obtain ⟨hd, hbytes⟩ := List.ne_and_not_mem_of_not_mem_cons h
    simpa [cleanFrom, Ne.symm hd] using ih hbytes

/-! ## The host that scans (R179) -/

theorem scan_append {a b : List Byte} {s t u : State} {fs fs' : List Frame} (ha : scan a s = some (t, fs))
    (hb : scan b t = some (u, fs')) : scan (a ++ b) s = some (u, fs ++ fs') := by
  induction a generalizing s fs with
  | nil => cases ha; exact hb
  | cons d a ih =>
    simp only [scan, Option.bind_eq_bind, Option.bind_eq_some_iff, Prod.exists] at ha
    obtain ⟨x, r, hissue, hscan⟩ := ha
    split at hscan
    · next hheld =>
      simp only [Option.bind_eq_some_iff, Prod.exists] at hscan
      obtain ⟨y, f, hread, z, r', hrelease, x', gs, hrest, heq⟩ := hscan
      cases heq
      simp [scan, hissue, hheld, hread, hrelease, ih hrest]
    · next hmore =>
      simp only [Option.bind_eq_some_iff, Prod.exists] at hscan
      obtain ⟨x', gs, hrest, heq⟩ := hscan
      cases heq
      simp [scan, hissue, hmore, ih hrest]

theorem scan_cons_of_no_frame {d : Byte} {rest : List Byte} {s t u : State} {r : OpResult} {fs : List Frame}
    (h : issue (.rxByte d) s = some (t, r)) (hr : r.data ≠ eventData .frameOk) (hrest : scan rest t = some (u, fs)) :
    scan (d :: rest) s = some (u, fs) := by
  simp [scan, h, hr, hrest]

/-- Bytes that complete no frame: the host only feeds them. -/
theorem scan_of_no_frame {bytes : List Byte} {s t : State} {rs : List OpResult}
    (h : issueAll (rxFeedOps bytes) s = some (t, rs)) (hrs : ∀ r ∈ rs, r.data ≠ eventData .frameOk) :
    scan bytes s = some (t, []) := by
  induction bytes generalizing s rs with
  | nil => cases h; rfl
  | cons d bytes ih =>
    obtain ⟨a, r, rs', hissue, hrun, rfl⟩ := issueAll_cons_eq_some_iff.mp h
    obtain ⟨hr, hrs⟩ := List.forall_mem_cons.mp hrs
    exact scan_cons_of_no_frame hissue hr (ih hrun hrs)

theorem Seeking.scan_of_isClean {bytes : List Byte} {s : State} (h : Seeking false s) (hclean : isClean bytes = true) :
    ∃ t, scan bytes s = some (t, []) ∧ Seeking false t := by
  obtain ⟨t, rs, hrun, hevents, ht⟩ := h.issueAll_of_cleanFrom hclean
  exact ⟨t, scan_of_no_frame hrun fun r hr => (hevents r hr).2, ht⟩

/-- After the release of a held frame the unit seeks again (R173). -/
theorem HoldsFrame.issue_rxRelease {cmd seq : Byte} {p : List Byte} {s : State} (h : HoldsFrame cmd seq p s) :
    ∃ t r, issue .rxRelease s = some (t, r) ∧ Seeking false t :=
  ⟨_, _, issue_of_exec (exec_rxRelease_of_held h.valid) rfl, rfl, h.seek1⟩

/-- The byte that completes a frame: the host reads the frame and releases it. -/
theorem scan_singleton_of_frame {d cmd seq : Byte} {p : List Byte} {s t : State} (hp : p.length ≤ 65535)
    (h : issue (.rxByte d) s = some (t, ⟨.ok, eventData .frameOk, []⟩)) (ht : HoldsFrame cmd seq p t) :
    ∃ u, scan [d] s = some (u, [⟨cmd, seq, p⟩]) ∧ Seeking false u := by
  obtain ⟨a, hread, ha⟩ := ht.readFrame_eq hp
  obtain ⟨u, r, hrelease, hu⟩ := ha.issue_rxRelease
  exact ⟨u, by simp [scan, h, hread, hrelease], hu⟩

/-- Bytes of which the last completes a frame. -/
theorem scan_of_last_frame {bytes : List Byte} {cmd seq : Byte} {p : List Byte} {s t : State} {rs : List OpResult}
    (hp : p.length ≤ 65535)
    (h : issueAll (rxFeedOps bytes) s = some (t, rs ++ [⟨.ok, eventData .frameOk, []⟩]))
    (hrs : ∀ r ∈ rs, r.data ≠ eventData .frameOk) (ht : HoldsFrame cmd seq p t) :
    ∃ u, scan bytes s = some (u, [⟨cmd, seq, p⟩]) ∧ Seeking false u := by
  induction bytes generalizing s rs with
  | nil => simp [rxFeedOps, issueAll] at h
  | cons d bytes ih =>
    obtain ⟨a, r, rs', hissue, hrun, heq⟩ := issueAll_cons_eq_some_iff.mp h
    cases rs with
    | nil =>
      obtain ⟨rfl, rfl⟩ := List.cons_eq_cons.mp heq
      cases bytes with
      | nil =>
        cases hrun
        exact scan_singleton_of_frame hp hissue ht
      | cons d' bytes =>
        obtain ⟨_, _, _, _, _, hnil⟩ := issueAll_cons_eq_some_iff.mp hrun
        cases hnil
    | cons r' rs =>
      obtain ⟨rfl, rfl⟩ := List.cons_eq_cons.mp heq
      obtain ⟨hr, hrs⟩ := List.forall_mem_cons.mp hrs
      obtain ⟨u, hscan, hu⟩ := ih hrun hrs
      exact ⟨u, scan_cons_of_no_frame hissue hr hscan, hu⟩

/-- The bytes of a frame give the frame (R177). -/
theorem Seeking.scan_frameBytes {s : State} (h : Seeking false s) (cmd seq : Byte) {p : List Byte}
    (hp : p.length ≤ 65535) :
    ∃ t, scan (frameBytes cmd seq p) s = some (t, [⟨cmd, seq, p⟩]) ∧ Seeking false t := by
  obtain ⟨t, hrun, ht⟩ := issueAll_rxFeedOps_frameBytes h.free h.state cmd seq hp
  refine scan_of_last_frame hp hrun (fun r hr => ?_) ht
  simp only [List.mem_append, List.mem_cons, List.mem_replicate, List.not_mem_nil, or_false] at hr
  obtain (rfl | rfl) | ⟨_, rfl⟩ := hr <;> decide

/-- Settles O42: clean garbage adds no frame, each frame adds itself, and after each the unit is in SEEK1 again. -/
theorem framesAmongCleanGarbageAreReceived : Obligations.FramesAmongCleanGarbageAreReceived := by
  refine ⟨fun s g1 g2 g3 c1 q1 c2 q2 p1 p2 f1 f2 hv hs hg1 hg2 hg3 hf1 hf2 => ?scan,
    fun s g hv hs => ⟨fun hclean => ?events, fun ⟨t, rs, hrun, hevents, ht⟩ => ?clean⟩,
    fun g hg => isClean_of_not_mem hg⟩
  case scan =>
    obtain ⟨hp1, rfl⟩ := encodeFrame_eq_ok_iff.mp hf1
    obtain ⟨hp2, rfl⟩ := encodeFrame_eq_ok_iff.mp hf2
    have h : Seeking false s := ⟨hv, hs⟩
    obtain ⟨a, hscan1, ha⟩ := h.scan_of_isClean hg1
    obtain ⟨b, hframe1, hb⟩ := ha.scan_frameBytes c1 q1 hp1
    obtain ⟨c, hscan2, hc⟩ := hb.scan_of_isClean hg2
    obtain ⟨d, hframe2, hd⟩ := hc.scan_frameBytes c2 q2 hp2
    obtain ⟨t, hscan3, ht⟩ := hd.scan_of_isClean hg3
    exact ⟨t, scan_append (scan_append (scan_append (scan_append hscan1 hframe1) hscan2) hframe2) hscan3,
      ht.state, ht.free⟩
  case events =>
    obtain ⟨t, rs, hrun, hevents, ht⟩ := Seeking.issueAll_of_cleanFrom (after55 := false) ⟨hv, hs⟩ hclean
    exact ⟨t, rs, hrun, fun r hr => (hevents r hr).1, ht.state⟩
  case clean => exact Seeking.cleanFrom_of_issueAll (after55 := false) ⟨hv, hs⟩ hrun hevents ht

end Sys2Proof.Machine

end

section
/-! PROOF. The statements about the block (spec/43_block.md R200 to R203): a step is the operation its word decodes to,
or ILLEGAL without effect; and from a state with the invariant it always answers. -/

namespace Sys2Proof.Machine

/-! ## The dispatch (R202) -/

theorem step_of_input_nil {s : State} (hin : s.input = []) : step s = idleStep s := by
  unfold step
  rw [hin]

theorem step_of_input_reset {s : State} {rest : List HostInput} (hin : s.input = .reset :: rest) :
    step s = resetInput (withInput rest s) := by
  unfold step
  rw [hin]

theorem step_of_decode_ok {s : State} {w : OpWord} {rest : List HostInput} {i : Instr}
    (hin : s.input = .word w :: rest) (hw : decode w = .ok i) : step s = exec i (withInput rest s) := by
  unfold step
  rw [hin]
  simp only [hw]

theorem decodeTableWord_eq_some_iff {nbits w : Nat} {i : Instr} :
    decodeTableWord nbits w = some i ↔ decode (tableWord nbits w) = .ok i := by
  unfold decodeTableWord
  split
  · next hw => rw [hw, Option.some.injEq, Except.ok.injEq]
  · next hw => rw [hw]; exact iff_of_false nofun nofun

/-- Settles O1: the decoder's answer selects the step's arm. -/
theorem stepRunsDecodedOperation : Obligations.StepRunsDecodedOperation :=
  fun _ _ _ _ => step_of_decode_ok

/-- Settles O2: the presented word is the head of the input, and taking it gives the state back. -/
theorem presentedWordRunsNext : Obligations.PresentedWordRunsNext := by
  intro s nbits w i hw
  have hin : (s.withFetchWord nbits w).input = .word (tableWord nbits w) :: s.input := rfl
  exact step_of_decode_ok hin (decodeTableWord_eq_some_iff.mp hw)

/-! ## NOP and the illegal word (R200, R201) -/

/-- Settles O14: format N, and the operation returns without a change. -/
theorem nopDoesNothing : Obligations.NopDoesNothing :=
  ⟨fun x => (decode_opWord .nop x).trans (if_congr and_reservedMask_n rfl rfl), fun _ => ret_nil_eq _ _ _⟩

/-- A word that no row of R88 selects does not decode: a legal word has its row. -/
theorem decode_error_of_no_row {w : OpWord} (h : ∀ r ∈ opRows, r.selects w = false) : ∃ e, decode w = .error e := by
  cases hw : decode w with
  | error e => exact ⟨e, rfl⟩
  | ok i =>
    obtain ⟨r, hr, hsel, _⟩ := (oneTableRowPerLegalWord w).2.1 i hw
    exact absurd hsel (by simp [h r hr])

/-- Settles O9: a word without a row does not decode, and such a word raises ILLEGAL. -/
theorem illegalWordHasNoEffect : Obligations.IllegalWordHasNoEffect := by
  intro s w rest hin hrows
  obtain ⟨_, hw⟩ := decode_error_of_no_row hrows
  exact step_of_decode_error hin hw

/-! ## Every step completes (R202, R203) -/

/-- Settles O57: each kind of input is answered; for an operation this is where the invariant is needed, since RX.BYTE
stops in COLLECT without a cell left (log 6). -/
theorem everyStepCompletes : Obligations.EveryStepCompletes := by
  intro s h
  match hin : s.input with
  | [] => exact ⟨_, step_of_input_nil hin⟩
  | .reset :: rest => exact ⟨_, step_of_input_reset hin⟩
  | .word w :: rest =>
    cases hw : decode w with
    | ok i =>
      rw [step_of_decode_ok hin hw]
      exact exec_answers (inv_withInput rest h) i
    | error e => exact ⟨_, step_of_decode_error hin hw⟩

end Sys2Proof.Machine

end

section
/-! PROOF. The statements about errors (spec/60_exceptions.md R210 to R213, R223): the operation and the state before it
give the status, a status that is not OK comes from `raise`, and ILLEGAL comes from the decoder alone. -/

namespace Sys2Proof.Machine

/-! ## The status of an operation (R212, R213) -/

/-- The status an operation returns in a state: OK but for the cause of BUSY (R212) and the causes (a) to (e) of
PARAM_ERROR (R213). -/
def execStatus : Instr → State → Status
  | .rxByte _, s => if s.rxFrameValid then .busy else .ok
  | .rxReadhdr, s => if s.rxFrameValid then .ok else .paramError
  | .rxPeek idx, s =>
    if s.rxFrameValid then if idx.toNat < (rxLength s).toNat then .ok else .paramError else .paramError
  | .txStart _ _ _, s => if s.txBusy then .paramError else .ok
  | .txByte _, s => if s.txBusy then .ok else .paramError
  | _, _ => .ok

theorem execStatus_eq_busy_iff (i : Instr) (s : State) :
    execStatus i s = .busy ↔ (∃ d, i = .rxByte d) ∧ s.rxFrameValid = true := by
  cases i with
  | rxByte d => simp [execStatus]
  | rxReadhdr | rxPeek | txStart | txByte => simp [execStatus, ite_eq_iff]
  | _ => simp [execStatus]

theorem execStatus_eq_paramError_iff (i : Instr) (s : State) :
    execStatus i s = .paramError ↔
      (∃ cmd seq len, i = .txStart cmd seq len ∧ s.txBusy = true) ∨
      (∃ d, i = .txByte d ∧ s.txBusy = false) ∨
      (i = .rxReadhdr ∧ s.rxFrameValid = false) ∨
      (∃ idx, i = .rxPeek idx ∧ s.rxFrameValid = false) ∨
      (∃ idx, i = .rxPeek idx ∧ s.rxFrameValid = true ∧ (rxLength s).toNat ≤ idx.toNat) := by
  cases i with
  | rxPeek idx => cases hv : s.rxFrameValid <;> simp [execStatus, hv]
  | rxByte => simp [execStatus, ite_eq_iff]
  | _ => simp [execStatus]

theorem execStatus_ne_illegal (i : Instr) (s : State) : execStatus i s ≠ .illegal := by
  cases i with
  | rxByte | rxReadhdr | rxPeek | txStart | txByte => simp [execStatus, ite_eq_iff]
  | _ => simp [execStatus]

/-! ## An error comes from `raise` (R210) -/

/-- An answer from the state `s` has this status, and where the status is not OK, no data, no output and no other
change (R210). -/
def AnswersWith (status : Status) (s : State) (a : Host.Outcome State Fault Refusal) : Prop :=
  ∀ t, a = .next t → ∃ r, t.result = some r ∧ r.status = status ∧
    (status ≠ .ok → r.data = 0#32 ∧ r.out = [] ∧ t = { s with result := some r })

section
variable (s : State)

theorem ret_ok_answersWith (data : Word) (out : List Byte) (u : State) : AnswersWith .ok s (ret .ok data out u) := by
  rintro _ ⟨⟩
  exact ⟨_, rfl, rfl, fun hne => absurd rfl hne⟩

theorem raise_answersWith (status : Status) : AnswersWith status s (raise status s) := by
  rw [raise_eq]
  rintro _ ⟨⟩
  exact ⟨_, rfl, rfl, fun _ => ⟨rfl, rfl, rfl⟩⟩

theorem execRxByte_answersWith (d : Byte) : AnswersWith (execStatus (.rxByte d) s) s (execRxByte d s) := by
  cases hv : s.rxFrameValid with
  | true =>
    have hraise : execRxByte d s = raise .busy s := if_pos hv
    simpa [execStatus, hv, hraise] using raise_answersWith s .busy
  | false =>
    intro t h
    have hok : execStatus (.rxByte d) s = .ok := by simp [execStatus, hv]
    rw [hok]
    obtain ⟨hheld, _⟩ | ⟨_, _, _, rfl⟩ | ⟨_, _, _, rfl⟩ | ⟨_, _, _, rfl⟩ | ⟨_, _, _, rfl⟩ |
      ⟨_, _, _, ⟨_, rfl⟩ | ⟨_, _, rfl⟩ | ⟨_, rfl⟩⟩ := execRxByte_cases h
    case inl => exact absurd (hheld.symm.trans hv) (by decide)
    all_goals exact ⟨_, rfl, rfl, fun hne => absurd rfl hne⟩

theorem execRxReadhdr_answersWith : AnswersWith (execStatus .rxReadhdr s) s (execRxReadhdr s) := by
  rw [execStatus, execRxReadhdr]
  split
  · exact ret_ok_answersWith s _ _ _
  · exact raise_answersWith s _

theorem execRxPeek_answersWith (idx : Len) : AnswersWith (execStatus (.rxPeek idx) s) s (execRxPeek idx s) := by
  rw [execStatus, execRxPeek]
  split
  · split
    · exact ret_ok_answersWith s _ _ _
    · exact raise_answersWith s _
  · exact raise_answersWith s _

theorem execTxStart_answersWith (cmd seq : Byte) (len : Len) :
    AnswersWith (execStatus (.txStart cmd seq len) s) s (execTxStart cmd seq len s) := by
  rw [execStatus, execTxStart]
  split
  · exact raise_answersWith s _
  · dsimp only
    split <;> exact ret_ok_answersWith s _ _ _

theorem execTxByte_answersWith (d : Byte) : AnswersWith (execStatus (.txByte d) s) s (execTxByte d s) := by
  rw [execStatus, execTxByte]
  split
  · dsimp only
    split <;> exact ret_ok_answersWith s _ _ _
  · exact raise_answersWith s _

theorem exec_answersWith (i : Instr) : AnswersWith (execStatus i s) s (exec i s) := by
  cases i with
  | rxByte d => exact execRxByte_answersWith s d
  | rxReadhdr => exact execRxReadhdr_answersWith s
  | rxPeek idx => exact execRxPeek_answersWith s idx
  | txStart cmd seq len => exact execTxStart_answersWith s cmd seq len
  | txByte d => exact execTxByte_answersWith s d
  | _ => exact ret_ok_answersWith s _ _ _

end

/-- The one result of an operation has the status of `execStatus`. -/
theorem exec_result_status {i : Instr} {s t : State} {r : OpResult} (h : exec i s = .next t) (hr : t.result = some r) :
    r.status = execStatus i s := by
  obtain ⟨_, hr', hstatus, _⟩ := exec_answersWith s i t h
  rwa [Option.some.inj (hr.symm.trans hr')]

theorem exec_of_status_ne_ok {i : Instr} {s t : State} {r : OpResult} (h : exec i s = .next t)
    (hr : t.result = some r) (hne : r.status ≠ .ok) :
    r.data = 0#32 ∧ r.out = [] ∧ t = { s with result := some r } := by
  obtain ⟨_, hr', hstatus, herror⟩ := exec_answersWith s i t h
  obtain rfl := Option.some.inj (hr.symm.trans hr')
  exact herror (hstatus ▸ hne)

/-- Settles O46: an idle step and the reset input have no result, and an operation or an illegal word that does not
answer OK ends in `raise`. -/
theorem nonOkResultChangesNothing : Obligations.NonOkResultChangesNothing := by
  refine ⟨fun s t r h hr hne => ?_, fun i s t h => ?_, rfl, rfl, rfl, rfl⟩
  · cases step_effect h with
    | idle _ ht => subst ht; cases hr
    | reset _ _ ht => subst ht; cases hr
    | operation w rest i hin _ ht =>
      obtain ⟨hdata, hout, ht⟩ := exec_of_status_ne_ok ht hr hne
      exact ⟨hdata, hout, by rw [ht, hin]; rfl⟩
    | illegal w rest hin ht =>
      rw [withResult_of_out_nil rfl] at ht
      subst ht
      cases hr
      exact ⟨rfl, rfl, by rw [hin]; rfl⟩
  · obtain ⟨r, hr, _⟩ := exec_answersWith s i t h
    exact ⟨r, hr⟩

/-- Settles O47: the status is BUSY in one arm of `execStatus`. -/
theorem busyHasOneCause : Obligations.BusyHasOneCause := by
  intro i s t r h hr
  rw [exec_result_status h hr]
  exact execStatus_eq_busy_iff i s

theorem encodeFrame_eq_error_iff {cmd seq : Byte} {p : List Byte} :
    encodeFrame cmd seq p = .error .paramError ↔ 65535 < p.length := by
  unfold encodeFrame
  split
  · next hp => exact iff_of_false nofun (Nat.not_lt.mpr hp)
  · next hp => exact iff_of_true rfl (Nat.not_le.mp hp)

/-- Settles O48: the arms of `execStatus` that give PARAM_ERROR are the causes (a) to (e). -/
theorem paramErrorHasTheListedCauses : Obligations.ParamErrorHasTheListedCauses := by
  refine ⟨fun i s t r h hr => ?_, fun _ _ _ => encodeFrame_eq_error_iff⟩
  rw [exec_result_status h hr]
  exact execStatus_eq_paramError_iff i s

/-! ## The words that do not decode (R211) -/

section
variable {w : OpWord}

/-- A word whose `op` is listed for a format fails to decode by the format's reserved bits alone (R83). -/
theorem decode_error_iff_of_format {ops : List Byte} {f : Format}
    (hops : (opMap.filter (fun i => i.format = f)).map Instr.opcode = ops) (hop : opField w ∈ ops) :
    (∃ e, decode w = .error e) ↔ ¬ operandField w &&& f.reservedMask = 0#32 := by
  obtain ⟨i, hi, rfl⟩ := exists_instr_of_mem_formatOps hops hop
  rw [decode_of_opField hi]
  split
  · next hx => exact iff_of_false (fun ⟨_, he⟩ => nomatch he) (not_not_intro hx)
  · next hx => exact iff_of_true ⟨_, rfl⟩ hx

theorem decode_error_iff_of_formatN (hop : opField w ∈ formatNOps) :
    (∃ e, decode w = .error e) ↔ operandField w ≠ 0#32 :=
  (decode_error_iff_of_format (f := .n) (by decide) hop).trans and_reservedMask_n.not

theorem decode_error_iff_of_formatB (hop : opField w ∈ formatBOps) :
    (∃ e, decode w = .error e) ↔ (operandField w).extractLsb' 8 24 ≠ 0#24 :=
  (decode_error_iff_of_format (f := .b) (by decide) hop).trans and_reservedMask_b.not

theorem decode_error_iff_of_formatI (hop : opField w ∈ formatIOps) :
    (∃ e, decode w = .error e) ↔ (operandField w).extractLsb' 16 16 ≠ 0#16 :=
  (decode_error_iff_of_format (f := .i) (by decide) hop).trans and_reservedMask_i.not

/-- The words without an operation are those of the two causes of R211: an `op` outside the map, or a 1 in a reserved
bit of its format. -/
theorem decode_error_iff : (∃ e, decode w = .error e) ↔
    opField w ∉ formatNOps ++ formatBOps ++ formatIOps ++ formatHOps ∨
    (opField w ∈ formatNOps ∧ operandField w ≠ 0#32) ∨
    (opField w ∈ formatBOps ∧ (operandField w).extractLsb' 8 24 ≠ 0#24) ∨
    (opField w ∈ formatIOps ∧ (operandField w).extractLsb' 16 16 ≠ 0#16) := by
  constructor
  · intro herror
    by_cases hop : opField w ∈ formatNOps ++ formatBOps ++ formatIOps ++ formatHOps
    · right
      simp only [List.mem_append] at hop
      rcases hop with ((hn | hb) | hi) | hh
      · exact .inl ⟨hn, (decode_error_iff_of_formatN hn).mp herror⟩
      · exact .inr (.inl ⟨hb, (decode_error_iff_of_formatB hb).mp herror⟩)
      · exact .inr (.inr ⟨hi, (decode_error_iff_of_formatI hi).mp herror⟩)
      · obtain ⟨_, hok⟩ := reservedOperandBitsAreIllegal.2 w hh
        obtain ⟨_, he⟩ := herror
        cases hok.symm.trans he
    · exact .inl hop
  · rintro (hop | ⟨hn, hx⟩ | ⟨hb, hx⟩ | ⟨hi, hx⟩)
    · exact ⟨_, decode_of_unassigned hop⟩
    · exact (decode_error_iff_of_formatN hn).mpr hx
    · exact (decode_error_iff_of_formatB hb).mpr hx
    · exact (decode_error_iff_of_formatI hi).mpr hx

/-- The decoder alone gives ILLEGAL: no operation does. -/
theorem step_status_illegal_iff {s t : State} {rest : List HostInput} {r : OpResult} (hin : s.input = .word w :: rest)
    (h : step s = .next t) (hr : t.result = some r) : r.status = .illegal ↔ ∃ e, decode w = .error e := by
  cases hw : decode w with
  | ok i =>
    rw [step_of_decode_ok hin hw] at h
    rw [exec_result_status h hr]
    exact iff_of_false (execStatus_ne_illegal _ _) nofun
  | error e =>
    rw [step_of_decode_error hin hw] at h
    cases h
    cases hr
    exact iff_of_true rfl ⟨e, rfl⟩

end

/-- Settles O49: ILLEGAL says that the word does not decode, and as a status that is not OK it has no data and no
output. -/
theorem illegalIsCheckedFirst : Obligations.IllegalIsCheckedFirst := by
  intro s t w rest r hin h hr
  refine ⟨(step_status_illegal_iff hin h hr).trans decode_error_iff, fun hillegal => ?_⟩
  obtain ⟨hdata, hout, _⟩ := nonOkResultChangesNothing.1 s t r h hr (by simp [hillegal])
  rw [← hillegal, ← hdata, ← hout]

/-! ## The idle port (R223) -/

/-- Settles O11: the step with an empty input is the idle step. -/
theorem idlePortHoldsState : Obligations.IdlePortHoldsState :=
  fun _ => step_of_input_nil

end Sys2Proof.Machine

end

section
/-! PROOF. The statement about the reset input (spec/70_reset_and_hazards.md R240). -/

namespace Sys2Proof.Machine

/-- Settles O12: the state the reset input leaves is the reset state in all but the draw, the rest of the host's input
and the output queue, and taking the input does not change that queue. -/
theorem resetInputFromAnyState : Obligations.ResetInputFromAnyState := by
  intro s rest hin
  exact ⟨_, step_of_input_reset hin, rfl, rfl, rfl, rfl, rfl, rfl, rfl, rfl, rfl⟩

end Sys2Proof.Machine

end
